-- ==== Sys2Proof/Word.lean ====
section
/-! DEFINITION. The word types of the block (00_scope.md R10, 20_memory.md R49, 30_encoding.md R66). -/

namespace Sys2Proof

/-- A data register or datapath value: 64 bits (R7 `P_WORD`, R10). -/
abbrev Word := BitVec 64

/-- One byte of host memory, or an opcode (bits 7:0 of a command word). -/
abbrev Byte := BitVec 8

/-- One word of the command stream: 32 bits (R66). -/
abbrev CmdWord := BitVec 32

/-- The number of byte addresses, 2^64 (10_state.md R41, `P_ADDR_W` = 64). -/
abbrev addressSpace : Nat := 2 ^ 64

end Sys2Proof
end

