-- ==== Sys2Proof/Config.lean ====
section
/-! DEFINITION. What a build of the block fixes (00_scope.md R7), and the free values.

The four parameters with two legal values each are data (`Build`), held in State, so that every
statement covers every legal build. The parameters with one value (`P_DEFAULT_SECRET`,
`P_RAND_INC`, `P_RAND_XOR`, `P_WIDE_MUL_AVAILABLE`) stand in Machine/Params.lean. -/

namespace Sys2Proof

/-- `P_HASH_FORM` (R7; 90_conflicts.md C2). -/
inductive HashForm where
  | doc
  | alt
  deriving DecidableEq, Repr

/-- `P_GAU_SCALE` (R7; 90_conflicts.md C3). -/
inductive GauScale where
  | formula
  | literal
  deriving DecidableEq, Repr

/-- The parameters a legal build may choose (R7). They are fixed for a build. -/
structure Build where
  /-- `P_XOR_STRONGER` -/
  xorStronger : Bool
  /-- `P_HASH_FORM` -/
  hashForm : HashForm
  /-- `P_BLOCK_GE48` -/
  blockGe48 : Bool
  /-- `P_GAU_SCALE` -/
  gauScale : GauScale
  deriving DecidableEq, Repr

/-- The default build of R7, `WYCMD-1/cfg=0x2` (R2). -/
def Build.default : Build :=
  { xorStronger := false, hashForm := .doc, blockGe48 := false, gauScale := .formula }

/-- Free value. `RNG` after reset: `P_RNG_RESET`, "an unspecified 64-bit value"
(10_state.md R31). It has no body, so nothing can be proved of its value (log 2). -/
opaque Config.rngReset : Word

/-- Free value. What a snapshot would answer at an address that is not admitted. No command reads
one after `CheckRead` has passed (20_memory.md R63), so no result depends on it (log 12). -/
opaque Config.unadmittedByte : Nat → Byte

end Sys2Proof
end

