-- ==== Sys2Proof/Syntax.lean ====
section
/-! DEFINITION. The syntax of WYCMD-1: register names (10_state.md R21) and the fifteen commands of
the opcode map (30_encoding.md R72). -/

namespace Sys2Proof

/-- The sixteen register indices, in index order (R21). Index 15 names no register (R35). -/
inductive Reg where
  | a | b | lo | hi | seed | ptr | len | rng
  | sec0 | sec1 | sec2 | sec3
  | status | config | faddr | rsv15
  deriving DecidableEq, Repr

/-- A command, one constructor per row of the opcode map. -/
inductive Instr where
  /-- do nothing (R120) -/
  | nop
  /-- write a 64-bit immediate (R121) -/
  | wri (rd : Reg) (imm : Word)
  /-- copy a register (R123) -/
  | mov (rd rs : Reg)
  /-- return a register value to the host (R124) -/
  | rd (rs : Reg)
  /-- full 128-bit product of A and B (R88) -/
  | mum
  /-- xor-folded product of A and B (R89) -/
  | mix
  /-- load 8 bytes little-endian (R94) -/
  | rd64
  /-- load 4 bytes little-endian (R95) -/
  | rd32
  /-- the 1-to-3-byte reader (R96) -/
  | rdsm
  /-- hash the buffer `[PTR, PTR+LEN)` (R104) -/
  | hash
  /-- load the default secret (R106) -/
  | defsec
  /-- derive the secret from SEED (R110) -/
  | mksec
  /-- advance the PRNG one step (R114) -/
  | rand
  /-- uniform double from A (R117) -/
  | u01
  /-- approximate normal double from A (R118) -/
  | gau
  deriving DecidableEq, Repr

end Sys2Proof
end

