-- ==== Sys2Proof/WellFormed.lean ====
section
/-! DEFINITION. Which commands name only registers they may use (30_encoding.md R74, 10_state.md R21,
R35). A command that is not well formed still decodes and still runs: it raises `ILLEGAL_REG`. -/

namespace Sys2Proof

/-- Legal as a source: every index but 15 (R74, R35). -/
def Reg.mayRead (r : Reg) : Bool :=
  decide (r ≠ .rsv15)

/-- Legal as a destination: every index but 13, 14 and 15 (R74). -/
def Reg.mayWrite (r : Reg) : Bool :=
  decide (r ≠ .config ∧ r ≠ .faddr ∧ r ≠ .rsv15)

/-- A command whose register operands are legal (R74). -/
def Instr.wellFormed : Instr → Bool
  | .wri dst _ => dst.mayWrite
  | .mov dst src => src.mayRead && dst.mayWrite
  | .rd src => src.mayRead
  | .nop => true
  | .mum => true
  | .mix => true
  | .rd64 => true
  | .rd32 => true
  | .rdsm => true
  | .hash => true
  | .defsec => true
  | .mksec => true
  | .rand => true
  | .u01 => true
  | .gau => true

end Sys2Proof
end

