-- ==== Sys2Proof/Decode.lean ====
section
/-! DEFINITION. Command encoding (30_encoding.md): fields, the opcode map, the decoder of one command,
of a stream of words and of bytes, and the encoder. -/

namespace Sys2Proof

/-! ### Register indices (10_state.md R21) -/

/-- The 4-bit index of a register name. -/
def Reg.index : Reg → BitVec 4
  | .a => 0 | .b => 1 | .lo => 2 | .hi => 3 | .seed => 4 | .ptr => 5 | .len => 6 | .rng => 7
  | .sec0 => 8 | .sec1 => 9 | .sec2 => 10 | .sec3 => 11
  | .status => 12 | .config => 13 | .faddr => 14 | .rsv15 => 15

/-- The register name a 4-bit index stands for. -/
def Reg.ofIndex (i : BitVec 4) : Reg :=
  match i.toNat with
  | 0 => .a | 1 => .b | 2 => .lo | 3 => .hi | 4 => .seed | 5 => .ptr | 6 => .len | 7 => .rng
  | 8 => .sec0 | 9 => .sec1 | 10 => .sec2 | 11 => .sec3
  | 12 => .status | 13 => .config | 14 => .faddr | _ => .rsv15

/-! ### Fields of a command word (R67) -/

/-- `OPC`, bits 7:0. -/
def fieldOpc (w : CmdWord) : Byte := w.extractLsb' 0 8

/-- `RD`, bits 11:8. -/
def fieldRd (w : CmdWord) : BitVec 4 := w.extractLsb' 8 4

/-- `RS`, bits 15:12. -/
def fieldRs (w : CmdWord) : BitVec 4 := w.extractLsb' 12 4

/-- `RSV`, bits 31:16. -/
def fieldRsv (w : CmdWord) : BitVec 16 := w.extractLsb' 16 16

/-- The immediate of format I, `{IMM_HI, IMM_LO}` (R70). -/
def immediate (immLo immHi : CmdWord) : Word :=
  immLo.setWidth 64 ||| (immHi.setWidth 64 <<< 32)

/-! ### The opcode map (R72) -/

/-- `OPC` of each command. -/
def Instr.opcode : Instr → Byte
  | .nop => 0x00
  | .wri _ _ => 0x01
  | .mov _ _ => 0x02
  | .rd _ => 0x03
  | .mum => 0x10
  | .mix => 0x11
  | .rd64 => 0x20
  | .rd32 => 0x21
  | .rdsm => 0x22
  | .hash => 0x30
  | .defsec => 0x40
  | .mksec => 0x41
  | .rand => 0x50
  | .u01 => 0x60
  | .gau => 0x61

/-- One row of the opcode map: the match and mask of word 0, and the command it stands for, given
the registers named by the `RD` and `RS` fields and the immediate. -/
structure OpcodeRow where
  pattern : CmdWord
  mask : CmdWord
  build : Reg → Reg → Word → Instr

/-- A word selects a row when `(w & mask) = match` (R72). -/
def OpcodeRow.selects (row : OpcodeRow) (w : CmdWord) : Bool :=
  w &&& row.mask == row.pattern

/-- The rows of the opcode map, in the order of R72. -/
def opcodeMap : List OpcodeRow :=
  [ ⟨0x00000000, 0xFFFFFFFF, fun _ _ _ => .nop⟩,
    ⟨0x00000001, 0xFFFFF0FF, fun rd _ imm => .wri rd imm⟩,
    ⟨0x00000002, 0xFFFF00FF, fun rd rs _ => .mov rd rs⟩,
    ⟨0x00000003, 0xFFFF0FFF, fun _ rs _ => .rd rs⟩,
    ⟨0x00000010, 0xFFFFFFFF, fun _ _ _ => .mum⟩,
    ⟨0x00000011, 0xFFFFFFFF, fun _ _ _ => .mix⟩,
    ⟨0x00000020, 0xFFFFFFFF, fun _ _ _ => .rd64⟩,
    ⟨0x00000021, 0xFFFFFFFF, fun _ _ _ => .rd32⟩,
    ⟨0x00000022, 0xFFFFFFFF, fun _ _ _ => .rdsm⟩,
    ⟨0x00000030, 0xFFFFFFFF, fun _ _ _ => .hash⟩,
    ⟨0x00000040, 0xFFFFFFFF, fun _ _ _ => .defsec⟩,
    ⟨0x00000041, 0xFFFFFFFF, fun _ _ _ => .mksec⟩,
    ⟨0x00000050, 0xFFFFFFFF, fun _ _ _ => .rand⟩,
    ⟨0x00000060, 0xFFFFFFFF, fun _ _ _ => .u01⟩,
    ⟨0x00000061, 0xFFFFFFFF, fun _ _ _ => .gau⟩ ]

/-- What one whole command means to the decoder (R76): a command of the map, or an illegal word, of
which only `OPC` is ever recorded (60_exceptions.md R130). -/
inductive Decoded where
  | command (i : Instr)
  | illegal (opc : Byte)
  deriving DecidableEq, Repr

/-- The command of the first word `w` and, for format I, its two immediate words: the row the word
selects, or `ILLEGAL_CMD` (R72, R73). -/
def decodeCommand (w immLo immHi : CmdWord) : Decoded :=
  match opcodeMap.find? (·.selects w) with
  | some row => .command (row.build (.ofIndex (fieldRd w)) (.ofIndex (fieldRs w)) (immediate immLo immHi))
  | none => .illegal (fieldOpc w)

/-- How many words the command of first word `w` occupies: three if `OPC = 0x01` "whatever the
other fields hold", otherwise one (R71). -/
def commandLength (w : CmdWord) : Nat :=
  if fieldOpc w = 0x01 then 3 else 1

/-- Takes the first command off a stream of words; `none` while its words have not all arrived (R71). -/
def takeCommand : List CmdWord → Option (Decoded × List CmdWord)
  | [] => none
  | w :: rest =>
    if fieldOpc w = 0x01 then
      match rest with
      | immLo :: immHi :: rest' => some (decodeCommand w immLo immHi, rest')
      | _ => none
    else some (decodeCommand w 0 0, rest)

/-! ### The encoder (R69, R70, R78) -/

/-- The words of a command. -/
def encode : Instr → List CmdWord
  | .wri rd imm =>
    [0x01 ||| (rd.index.setWidth 32 <<< 8), imm.extractLsb' 0 32, imm.extractLsb' 32 32]
  | .mov rd rs => [0x02 ||| (rd.index.setWidth 32 <<< 8) ||| (rs.index.setWidth 32 <<< 12)]
  | .rd rs => [0x03 ||| (rs.index.setWidth 32 <<< 12)]
  | .nop => [0x00000000]
  | .mum => [0x00000010]
  | .mix => [0x00000011]
  | .rd64 => [0x00000020]
  | .rd32 => [0x00000021]
  | .rdsm => [0x00000022]
  | .hash => [0x00000030]
  | .defsec => [0x00000040]
  | .mksec => [0x00000041]
  | .rand => [0x00000050]
  | .u01 => [0x00000060]
  | .gau => [0x00000061]

/-! ### Byte serialisation (R77) -/

/-- One word as four bytes, least significant first. -/
def wordToBytes (w : CmdWord) : List Byte :=
  [w.extractLsb' 0 8, w.extractLsb' 8 8, w.extractLsb' 16 8, w.extractLsb' 24 8]

/-- The word of four bytes, least significant first. -/
def wordOfBytes (b0 b1 b2 b3 : Byte) : CmdWord :=
  b3 ++ b2 ++ b1 ++ b0

/-- A stream of words as bytes. -/
def wordsToBytes (ws : List CmdWord) : List Byte :=
  ws.flatMap wordToBytes

/-- The words of a stream of bytes; one to three bytes at the end are no word yet. -/
def wordsOfBytes : List Byte → List CmdWord
  | b0 :: b1 :: b2 :: b3 :: rest => wordOfBytes b0 b1 b2 b3 :: wordsOfBytes rest
  | _ => []

/-- Decodes the first command of a stream of bytes. -/
def decodeBytes (bytes : List Byte) : Option Decoded :=
  (takeCommand (wordsOfBytes bytes)).map Prod.fst

/-- A command as bytes. -/
def encodeBytes (i : Instr) : List Byte :=
  wordsToBytes (encode i)

/-! ### The opcode table's numbering of bits -/

/-- Byte `k` of the number `w`, of which only the low `nbits` bits count. -/
def tableByte (nbits w k : Nat) : Byte :=
  BitVec.ofNat 8 ((w % 2 ^ nbits) >>> (8 * k))

/-- The twelve bytes of the longest command, from an opcode-table word of `nbits` bits; the bits
above `nbits` are 0. -/
def tableBytes (nbits w : Nat) : List Byte :=
  (List.range 12).map (tableByte nbits w)

/-- The instruction the decoder reads from an opcode-table word; `none` where it is illegal. -/
def decodeTableWord (nbits w : Nat) : Option Instr :=
  match decodeBytes (tableBytes nbits w) with
  | some (.command i) => some i
  | _ => none

end Sys2Proof
end

