-- ==== Sys2Proof/Machine/Params.lean ====
section
/-! DEFINITION. The parameters of 00_scope.md R7 that have one value, and the values a build's choices
stand for. -/

namespace Sys2Proof.Machine

/-- A secret `s = (s0, s1, s2, s3)` (10_state.md R28). -/
structure Secret where
  s0 : Word
  s1 : Word
  s2 : Word
  s3 : Word
  deriving DecidableEq, Repr

/-- `P_DEFAULT_SECRET` (R7, 43_secret.md R106; kept as given, 90_conflicts.md C1). -/
def defaultSecret : Secret :=
  { s0 := 0xa0761d6478bd642f
    s1 := 0xe7037ed1a0b428db
    s2 := 0x8ebc6af09c88c6e3
    s3 := 0x589965cc75374cc3 }

/-- `P_RAND_INC` (R7, 44_rand.md R112). -/
def randInc : Word := 0x2d358dccaa6c78a5

/-- `P_RAND_XOR` (R7, 44_rand.md R112). -/
def randXor : Word := 0x8bb84b93962eacc9

/-- `P_WIDE_MUL_AVAILABLE`, hardwired (R9). -/
def wideMulAvailable : Bool := true

/-- `GAU_SCALE`, the binary64 pattern a build scales by (45_distrib.md R116). -/
def gauScaleBits : GauScale → Word
  | .formula => 0x3FC6A09E667F3BCD
  | .literal => 0x3FED105EB806161C

/-- One bit of `CONFIG`. -/
def configBit (on : Bool) (position : Nat) : Word :=
  (BitVec.ofBool on).setWidth 64 <<< position

/-- The word `CONFIG` reads as in a build (10_state.md R33). -/
def configWord (b : Build) : Word :=
  configBit b.xorStronger 0 |||
  configBit wideMulAvailable 1 |||
  configBit (decide (b.hashForm = .alt)) 2 |||
  configBit b.blockGe48 3 |||
  configBit (decide (b.gauScale = .literal)) 4

/-- The 70-element table, index 0 first (00_scope.md R19). -/
def table70 : List Byte :=
  [0x0f, 0x17, 0x1b, 0x1d, 0x1e, 0x27, 0x2b, 0x2d, 0x2e, 0x33] ++
  [0x35, 0x36, 0x39, 0x3a, 0x3c, 0x47, 0x4b, 0x4d, 0x4e, 0x53] ++
  [0x55, 0x56, 0x59, 0x5a, 0x5c, 0x63, 0x65, 0x66, 0x69, 0x6a] ++
  [0x6c, 0x71, 0x72, 0x74, 0x78, 0x87, 0x8b, 0x8d, 0x8e, 0x93] ++
  [0x95, 0x96, 0x99, 0x9a, 0x9c, 0xa3, 0xa5, 0xa6, 0xa9, 0xaa] ++
  [0xac, 0xb1, 0xb2, 0xb4, 0xb8, 0xc3, 0xc5, 0xc6, 0xc9, 0xca] ++
  [0xcc, 0xd1, 0xd2, 0xd4, 0xd8, 0xe1, 0xe2, 0xe4, 0xe8, 0xf0]

end Sys2Proof.Machine
end

