-- ==== Sys2Proof/Machine/State.lean ====
section
/-! DEFINITION. The state of the block and its surroundings (10_state.md), the reasons a step can stop,
and the state after reset (10_state.md R40, 70_reset_and_hazards.md R150). -/

namespace Sys2Proof.Machine

/-- Host memory (20_memory.md R49): a listed address is admitted and holds its byte; an address not
listed is not admitted (`P_MEM_ADMIT` false). Kept in the form `Memory.wf`. -/
abbrev Memory := List Host.Cell

/-- The canonical form: addresses strictly rising, all of them byte addresses (10_state.md R41). No
entry can equal what an unlisted address reads as, since that is no byte at all. -/
abbrev Memory.wf (m : Memory) : Prop :=
  (m.map Prod.fst).Pairwise (· < ·) ∧ ∀ c ∈ m, c.1 < addressSpace

/-- The decode state (10_state.md R39) with the words of an incomplete `WRI` already received
(30_encoding.md R71). -/
inductive DecodeState where
  /-- between commands -/
  | idle
  /-- the command word has been received, both immediate words have not -/
  | haveCommand (w : CmdWord)
  /-- the command word and `IMM_LO` have been received, `IMM_HI` has not -/
  | haveLow (w immLo : CmdWord)
  deriving DecidableEq, Repr

/-- "How many immediate words of a `WRI` it has still to receive (0, 1 or 2)" (R39). -/
def DecodeState.remaining : DecodeState → Nat
  | .idle => 0
  | .haveCommand _ => 2
  | .haveLow _ _ => 1

/-- Everything the spec gives the machine. -/
structure State where
  /-- `A`, index 0 (R21, R22) -/
  a : Word
  /-- `B`, index 1 (R21, R22) -/
  b : Word
  /-- `LO`, index 2 (R24) -/
  lo : Word
  /-- `HI`, index 3 (R24) -/
  hi : Word
  /-- `SEED`, index 4 (R25) -/
  seed : Word
  /-- `PTR`, index 5 (R26) -/
  ptr : Word
  /-- `LEN`, index 6 (R27) -/
  len : Word
  /-- `RNG`, index 7 (R30) -/
  rng : Word
  /-- `SEC0`, index 8 (R28) -/
  sec0 : Word
  /-- `SEC1`, index 9 (R28) -/
  sec1 : Word
  /-- `SEC2`, index 10 (R28) -/
  sec2 : Word
  /-- `SEC3`, index 11 (R28) -/
  sec3 : Word
  /-- `STATUS`, index 12 (R32); its fields are read by Machine/Flags.lean -/
  status : Word
  /-- `FADDR`, index 14 (R34) -/
  faddr : Word
  /-- the build, which `CONFIG` (index 13, R33) reports; fixed for a machine -/
  build : Build
  /-- the output queue `OUT`, oldest first (R38) -/
  out : List Word
  /-- the decode state (R39) -/
  pending : DecodeState
  /-- command words the host has presented and the block has not received, in order (R39, R66) -/
  port : List CmdWord
  /-- host memory (R41, 20_memory.md R49) -/
  mem : Memory
  /-- the model's own field: `P_MKSEC_FUEL`, how many attempts an `MKSEC` may make before the model
  refuses it (00_scope.md R7, 43_secret.md R111) -/
  mksecFuel : Nat
  deriving DecidableEq, Repr

/-- `s = (x[SEC0], x[SEC1], x[SEC2], x[SEC3])` (00_scope.md R18). -/
def State.secret (s : State) : Secret :=
  { s0 := s.sec0, s1 := s.sec1, s2 := s.sec2, s3 := s.sec3 }

/-- Why the machine stops with a fault: it never does. Errors are "precise and non-trapping"
(60_exceptions.md R134) and are recorded in `STATUS`; the spec names nothing that stops the block. -/
inductive Fault where
  deriving DecidableEq, Repr

/-- Why the model gives a step no next state. -/
inductive Refusal where
  /-- An instruction without a meaning yet; raised by `exec`'s refused arms only (none is left). Safe. -/
  | notModelled (mnemonic : String)
  /-- `MKSEC` used up `mksecFuel` without finding a secret; raised by `execMksec`. "Exhaustion is a
  **refusal**, never a value" (43_secret.md R111). Safe: the model says nothing where the hardware
  may go on searching. -/
  | mksecFuelExhausted
  deriving DecidableEq, Repr

/-- The fuel of the reset state: four words, each with as many attempts as the private wyrand state
has values 8 steps apart (2^61). A search that uses it up repeats itself for ever (log 7). -/
def defaultMksecFuel : Nat := 2 ^ 63

/-- The block after reset, in a build, with the draw `P_RNG_RESET` (R40, R150). What is not the
block's own (memory, the words at the port, the fuel of the model) is as given. -/
def State.resetWith (build : Build) (draw : Word) (mem : Memory) (port : List CmdWord) (fuel : Nat) :
    State :=
  { a := 0, b := 0, lo := 0, hi := 0, seed := 0, ptr := 0, len := 0
    rng := draw
    sec0 := defaultSecret.s0
    sec1 := defaultSecret.s1
    sec2 := defaultSecret.s2
    sec3 := defaultSecret.s3
    status := 0
    faddr := 0
    build := build
    out := []
    pending := .idle
    port := port
    mem := mem
    mksecFuel := fuel }

/-- The machine right after reset: the default build, a free `RNG`, no address admitted and no
command presented yet. -/
def State.reset : State :=
  .resetWith .default Config.rngReset [] [] defaultMksecFuel

end Sys2Proof.Machine
end

