-- ==== Sys2Proof/Machine/Flags.lean ====
section
/-! DEFINITION. The fields of `STATUS` (10_state.md R32) and the error codes (60_exceptions.md R130). -/

namespace Sys2Proof.Machine

/-- `ERR`, bit 0. -/
def statusErr (v : Word) : Bool := v.getLsbD 0

/-- `MULTI`, bit 1. -/
def statusMulti (v : Word) : Bool := v.getLsbD 1

/-- `ECODE`, bits 7:4. -/
def statusEcode (v : Word) : BitVec 4 := v.extractLsb' 4 4

/-- `EOPC`, bits 15:8. -/
def statusEopc (v : Word) : Byte := v.extractLsb' 8 8

/-- The fields a first error writes: `ERR`, `ECODE` and `EOPC`. -/
def firstErrorMask : Word := 0xFFF1

/-- `STATUS` after a first error: `ERR <- 1`, `ECODE <- code`, `EOPC <- opc` (R132). -/
def recordFirst (v : Word) (code : BitVec 4) (opc : Byte) : Word :=
  (v &&& ~~~firstErrorMask) ||| 1 ||| (code.setWidth 64 <<< 4) ||| (opc.setWidth 64 <<< 8)

/-- `STATUS` after a later error: `MULTI <- 1` (R132). -/
def recordLater (v : Word) : Word := v ||| 2

/-- An error a command can raise, with the information it records (R130). -/
inductive CmdError where
  /-- the first word matches no row of the opcode map -/
  | illegalCmd
  /-- a register index the command may not use -/
  | illegalReg
  /-- `RDSM` with `LEN` not 1, 2 or 3 -/
  | illegalLen
  /-- the read set of a buffer at `p` wraps past 2^64 -/
  | range (p : Word)
  /-- `a` is the lowest address of the read set that is not admitted -/
  | bus (a : Word)
  deriving DecidableEq, Repr

/-- The code of an error, as `ECODE` holds it (R130). -/
def errorCode : CmdError → BitVec 4
  | .illegalCmd => 1
  | .illegalReg => 2
  | .illegalLen => 3
  | .range _ => 4
  | .bus _ => 5

/-- The address an error writes to `FADDR`, if it is a memory error (R130, R131). -/
def errorAddress : CmdError → Option Word
  | .illegalCmd => none
  | .illegalReg => none
  | .illegalLen => none
  | .range p => some p
  | .bus a => some a

end Sys2Proof.Machine
end

