-- ==== Sys2Proof/Machine/Ops.lean ====
section
/-! DEFINITION. The operations the commands share: raising an error and clearing one, host memory, the
read check, and the little-endian composition of bytes. -/

namespace Sys2Proof.Machine

/-! ### Errors (60_exceptions.md R132, 46_transfer.md R122) -/

/-- `raise e` in a command whose first word has `OPC = opc` (R132). It is the block's only form of
exception: it redirects nothing (R134). -/
def raise (e : CmdError) (opc : Byte) (s : State) : State :=
  if statusErr s.status then
    { s with status := recordLater s.status }
  else
    { s with
      status := recordFirst s.status (errorCode e) opc
      faddr := (errorAddress e).getD s.faddr }

/-- A write to `STATUS`: the host's only way back from an error (R122, R135). -/
def clearStatus (s : State) : State :=
  { s with status := 0, faddr := 0 }

/-! ### Host memory (20_memory.md R48, R49) -/

/-- `MemByte(a)`: the byte of an admitted address, `none` for one that is not admitted (R49;
00_scope.md R14). What an unlisted address reads as is this `none` (log 3). -/
def memByte : Memory → Nat → Option Byte
  | [], _ => none
  | (a', v) :: m, a => if a' = a then some v else memByte m a

/-- `P_MEM_ADMIT(a)` (R49). -/
def memAdmits (m : Memory) (a : Nat) : Bool := (memByte m a).isSome

/-- The host gives the address `a` the byte `v`, admitting it if it was not. -/
def memWrite : Memory → Nat → Byte → Memory
  | [], a, v => [(a, v)]
  | (a', v') :: m, a, v =>
    if a < a' then (a, v) :: (a', v') :: m
    else if a = a' then (a, v) :: m
    else (a', v') :: memWrite m a v

/-- The platform stops admitting the address `a`. -/
def memUnmap (m : Memory) (a : Nat) : Memory :=
  m.filter fun c => decide (c.1 ≠ a)

/-- The lowest address of `[a, a + size)` that is not admitted (R52). -/
def firstRefused (m : Memory) : Nat → Nat → Option Nat
  | _, 0 => none
  | a, size + 1 => if memAdmits m a then firstRefused m (a + 1) size else some a

/-- `CheckRead(p, size)` (R63): the error of the read set `[p, p + size)`, `none` if it passes. The
range rule (R51) comes before the admission rule (R52). -/
def checkRead (m : Memory) (p : Word) (size : Nat) : Option CmdError :=
  if addressSpace < p.toNat + size then some (.range p)
  else (firstRefused m p.toNat size).map fun a => .bus (BitVec.ofNat 64 a)

/-- The one snapshot a command reads (R54): `M(a)`, the content of host memory at the command's
step. It is used after `checkRead` has passed, at addresses of the read set only. -/
def snapshot (m : Memory) (a : Nat) : Byte :=
  (memByte m a).getD (Config.unadmittedByte a)

/-! ### Bytes as words (00_scope.md R14, 20_memory.md R46) -/

/-- The little-endian composition of bytes, lowest first: `Σ zext_64(v_i) << (8·i)`. -/
def leWord : List Byte → Word
  | [] => 0
  | v :: vs => v.setWidth 64 ||| (leWord vs <<< 8)

/-- `MemRead(addr, n)` on a snapshot (R14). -/
def memRead (M : Nat → Byte) (addr n : Nat) : Word :=
  leWord ((List.range n).map fun i => M (addr + i))

/-- The form of every command that reads memory: `CheckRead` of the read set at `PTR`, then a result
into `LO` (41_readers.md R94 to R96, 42_hash.md R104). -/
def loadCommand (opc : Byte) (size : Nat) (result : (Nat → Byte) → Word) (s : State) : State :=
  match checkRead s.mem s.ptr size with
  | some e => raise e opc s
  | none => { s with lo := result (snapshot s.mem) }

end Sys2Proof.Machine
end

