-- ==== Sys2Proof/Machine/Operands.lean ====
section
/-! DEFINITION. Register operands: reading and writing the register an index names (10_state.md R21,
30_encoding.md R74). Every command that names a register goes through these two. -/

namespace Sys2Proof.Machine

/-- `x[r]` as a source; `none` for index 15, which names no register (R35). `CONFIG` reads the word
of the build (R33). -/
def readReg (r : Reg) (s : State) : Option Word :=
  match r with
  | .a => some s.a
  | .b => some s.b
  | .lo => some s.lo
  | .hi => some s.hi
  | .seed => some s.seed
  | .ptr => some s.ptr
  | .len => some s.len
  | .rng => some s.rng
  | .sec0 => some s.sec0
  | .sec1 => some s.sec1
  | .sec2 => some s.sec2
  | .sec3 => some s.sec3
  | .status => some s.status
  | .config => some (configWord s.build)
  | .faddr => some s.faddr
  | .rsv15 => none

/-- `x[r] <- v` as a destination of `WRI` or `MOV`; `none` for an index that may not be written
(R74). A write to `STATUS` ignores `v` and clears `STATUS` and `FADDR` (46_transfer.md R122). -/
def writeReg (r : Reg) (v : Word) (s : State) : Option State :=
  match r with
  | .a => some { s with a := v }
  | .b => some { s with b := v }
  | .lo => some { s with lo := v }
  | .hi => some { s with hi := v }
  | .seed => some { s with seed := v }
  | .ptr => some { s with ptr := v }
  | .len => some { s with len := v }
  | .rng => some { s with rng := v }
  | .sec0 => some { s with sec0 := v }
  | .sec1 => some { s with sec1 := v }
  | .sec2 => some { s with sec2 := v }
  | .sec3 => some { s with sec3 := v }
  | .status => some (clearStatus s)
  | .config => none
  | .faddr => none
  | .rsv15 => none

/-- The secret registers, written together (43_secret.md R106, R110). -/
def writeSecret (x : Secret) (s : State) : State :=
  { s with sec0 := x.s0, sec1 := x.s1, sec2 := x.s2, sec3 := x.s3 }

end Sys2Proof.Machine
end

