-- ==== Sys2Proof/Machine/Distrib.lean ====
section
/-! DEFINITION. Distribution transformers: U01, GAU (45_distrib.md), on binary64 bit patterns
(00_scope.md R16). -/

namespace Sys2Proof.Machine

/-- `wy2u01(x)`, the closed form (R115). -/
def wy2u01 (x : Word) : Word :=
  let m := (x >>> 12).toNat
  if m = 0 then 0
  else
    let e := m.log2
    BitVec.ofNat 64 (((1023 + e - 52) <<< 52) ||| ((m <<< (52 - e)) &&& (2 ^ 52 - 1)))

/-- The number of 1 bits of a byte (00_scope.md R11). -/
def popcountByte (v : Byte) : Nat :=
  ((List.range 8).map fun i => (v.getLsbD i).toNat).sum

/-- The sum of the popcounts of the eight byte fields of `x` (R116). -/
def popcountFields (x : Word) : Nat :=
  ((List.range 8).map fun j => popcountByte (x.extractLsb' (8 * j) 8)).sum

/-- `k`, an integer in −32 .. 32 (R116). -/
def gauIndex (x : Word) : Int := (popcountFields x : Int) - 32

/-- `m / 2^sh` rounded to the nearest integer, ties to even (R16 `RNE`). -/
def roundShift (m sh : Nat) : Nat :=
  let q := m >>> sh
  let r := m % 2 ^ sh
  if 2 ^ sh < 2 * r ∨ (2 ^ sh = 2 * r ∧ q % 2 = 1) then q + 1 else q

/-- `bits(RNE(k · f64(scale)))` for an integer `k ≥ 1` and a positive normal `scale`, while the result
is normal. The significand of the exact product is rounded to 53 bits; a carry out of the rounding
runs into the exponent field, as it must. -/
def scaleBits (k : Nat) (scale : Word) : Word :=
  let significand := 2 ^ 52 + (scale.extractLsb' 0 52).toNat
  let exponent := (scale.extractLsb' 52 11).toNat
  let m := k * significand
  let sh := m.log2 - 52
  BitVec.ofNat 64 ((exponent + sh) * 2 ^ 52 + (roundShift m sh - 2 ^ 52))

/-- The sign bit of a binary64 pattern (R16). -/
def signBit : Word := 0x8000000000000000

/-- `wy2gau(x)`: `k = 0` gives +0.0, and a negative `k` is the pattern of `−k` with bit 63 set (R116). -/
def wy2gau (bld : Build) (x : Word) : Word :=
  match gauIndex x with
  | .ofNat 0 => 0
  | .ofNat (k + 1) => scaleBits (k + 1) (gauScaleBits bld.gauScale)
  | .negSucc k => signBit ||| scaleBits (k + 1) (gauScaleBits bld.gauScale)

/-- `U01` (R117). -/
def execU01 (s : State) : Host.Outcome State Fault Refusal :=
  .next { s with lo := wy2u01 s.a }

/-- `GAU` (R118). -/
def execGau (s : State) : Host.Outcome State Fault Refusal :=
  .next { s with lo := wy2gau s.build s.a }

end Sys2Proof.Machine
end

