-- ==== Sys2Proof/Machine/Mix.lean ====
section
/-! DEFINITION. 128-bit multiply-mix: MUM, MIX (40_mix.md). -/

namespace Sys2Proof.Machine

/-- The exact 128-bit product `zext_128(a) · zext_128(b)` (R86). -/
def product128 (a b : Word) : BitVec 128 :=
  a.setWidth 128 * b.setWidth 128

/-- `wymum(a, b)`, the pair `(lo, hi)` (R86). -/
def wymum (bld : Build) (a b : Word) : Word × Word :=
  let p := product128 a b
  let pLo : Word := p.extractLsb' 0 64
  let pHi : Word := p.extractLsb' 64 64
  if bld.xorStronger then (a ^^^ pLo, b ^^^ pHi) else (pLo, pHi)

/-- `wymix(a, b) = lo ⊕ hi` (R87); it follows `P_XOR_STRONGER` wherever it is used (R90). -/
def wymix (bld : Build) (a b : Word) : Word :=
  let (l, h) := wymum bld a b
  l ^^^ h

/-- `MUM` (R88). -/
def execMum (s : State) : Host.Outcome State Fault Refusal :=
  let (l, h) := wymum s.build s.a s.b
  .next { s with lo := l, hi := h }

/-- `MIX` (R89). -/
def execMix (s : State) : Host.Outcome State Fault Refusal :=
  .next { s with lo := wymix s.build s.a s.b }

end Sys2Proof.Machine
end

