-- ==== Sys2Proof/Machine/Readers.lean ====
section
/-! DEFINITION. Unaligned little-endian readers: RD64, RD32, RDSM (41_readers.md). -/

namespace Sys2Proof.Machine

/-- `read64_le(p)` (R91). -/
def read64 (M : Nat → Byte) (p : Nat) : Word := memRead M p 8

/-- `read32_le(p)`, zero-extended (R92). -/
def read32 (M : Nat → Byte) (p : Nat) : Word := memRead M p 4

/-- `read_small(p, k)` for `k ∈ {1, 2, 3}`, which is not little-endian (R93). -/
def readSmall (M : Nat → Byte) (p k : Nat) : Word :=
  ((M p).setWidth 64 <<< 16) ||| ((M (p + (k >>> 1))).setWidth 64 <<< 8) |||
    (M (p + k - 1)).setWidth 64

/-- `RD64` (R94). -/
def execRd64 (s : State) : Host.Outcome State Fault Refusal :=
  .next (loadCommand Instr.rd64.opcode 8 (fun M => read64 M s.ptr.toNat) s)

/-- `RD32` (R95). -/
def execRd32 (s : State) : Host.Outcome State Fault Refusal :=
  .next (loadCommand Instr.rd32.opcode 4 (fun M => read32 M s.ptr.toNat) s)

/-- `RDSM` (R96): `ILLEGAL_LEN` is checked before any memory check. -/
def execRdsm (s : State) : Host.Outcome State Fault Refusal :=
  let k := s.len.toNat
  if k = 1 ∨ k = 2 ∨ k = 3 then
    .next (loadCommand Instr.rdsm.opcode k (fun M => readSmall M s.ptr.toNat k) s)
  else
    .next (raise .illegalLen Instr.rdsm.opcode s)

end Sys2Proof.Machine
end

