-- ==== Sys2Proof/Machine/Hash.lean ====
section
/-! DEFINITION. The wyhash core: HASH (42_hash.md). The function follows the steps of R97 to R102 in
their order; addresses and lengths are exact natural numbers (they never wrap after `CheckRead`,
20_memory.md R51). -/

namespace Sys2Proof.Machine

/-- Step 1, seed conditioning (R97). -/
def hashSeed (bld : Build) (s : Secret) (seed : Word) : Word :=
  match bld.hashForm with
  | .doc => seed ^^^ wymix bld (seed ^^^ s.s0) s.s1
  | .alt => seed ^^^ s.s0

/-- Step 2, the pair `(a, b)` of a short input, `n ≤ 16`, the tests in their normative order (R98). -/
def shortPair (M : Nat → Byte) (p n : Nat) : Word × Word :=
  if n = 0 then (0, 0)
  else if n ≤ 3 then (readSmall M p n, 0)
  else if n ≤ 8 then (read32 M p, read32 M (p + n - 4))
  else (read64 M p, read64 M (p + n - 8))

/-- The cursor, the remaining length and the three accumulators of the loops (R99; 90_conflicts.md
C4: there is no `see3`). -/
structure HashLoop where
  q : Nat
  i : Nat
  sd : Word
  see1 : Word
  see2 : Word
  deriving DecidableEq, Repr

/-- `cont(i)`: whether the block loop takes another block (R99). -/
def blockCont (bld : Build) (i : Nat) : Bool :=
  if bld.blockGe48 then decide (48 ≤ i) else decide (48 < i)

/-- One 48-byte block (R99). -/
def blockStep (bld : Build) (M : Nat → Byte) (s : Secret) (x : HashLoop) : HashLoop :=
  { q := x.q + 48
    i := x.i - 48
    sd := wymix bld (read64 M x.q ^^^ s.s1) (read64 M (x.q + 8) ^^^ x.sd)
    see1 := wymix bld (read64 M (x.q + 16) ^^^ s.s2) (read64 M (x.q + 24) ^^^ x.see1)
    see2 := wymix bld (read64 M (x.q + 32) ^^^ s.s3) (read64 M (x.q + 40) ^^^ x.see2) }

/-- The block loop. Each block lowers `i`, so the initial `i` is fuel enough (log 15). -/
def blockLoop (bld : Build) (M : Nat → Byte) (s : Secret) : Nat → HashLoop → HashLoop
  | 0, x => x
  | fuel + 1, x => if blockCont bld x.i then blockLoop bld M s fuel (blockStep bld M s x) else x

/-- Step 3a: the block loop and the merge after it, if it ran at all (R99). -/
def blockPhase (bld : Build) (M : Nat → Byte) (s : Secret) (p n : Nat) (sd : Word) : HashLoop :=
  let start : HashLoop := { q := p, i := n, sd := sd, see1 := sd, see2 := sd }
  if blockCont bld n then
    let x := blockLoop bld M s n start
    { x with sd := x.sd ^^^ x.see1 ^^^ x.see2 }
  else start

/-- One 16-byte chunk (R100). -/
def chunkStep (bld : Build) (M : Nat → Byte) (s : Secret) (x : HashLoop) : HashLoop :=
  { x with
    q := x.q + 16
    i := x.i - 16
    sd := wymix bld (read64 M x.q ^^^ s.s1) (read64 M (x.q + 8) ^^^ x.sd) }

/-- Step 3b: chunks while `i > 16` (R100); the initial `i` is fuel enough (log 15). -/
def chunkLoop (bld : Build) (M : Nat → Byte) (s : Secret) : Nat → HashLoop → HashLoop
  | 0, x => x
  | fuel + 1, x => if 16 < x.i then chunkLoop bld M s fuel (chunkStep bld M s x) else x

/-- Steps 3a and 3b of a long input. -/
def longLoops (bld : Build) (M : Nat → Byte) (s : Secret) (p n : Nat) (sd : Word) : HashLoop :=
  let x := blockPhase bld M s p n sd
  chunkLoop bld M s x.i x

/-- Step 3c: the last 16 bytes of the buffer (R101). -/
def longPair (M : Nat → Byte) (x : HashLoop) : Word × Word :=
  (read64 M (x.q + x.i - 16), read64 M (x.q + x.i - 8))

/-- Step 4, finalisation (R102). -/
def hashFinish (bld : Build) (s : Secret) (n sd a b : Word) : Word :=
  match bld.hashForm with
  | .doc =>
    let (l, h) := wymum bld (a ^^^ s.s1) (b ^^^ sd)
    wymix bld (l ^^^ s.s0 ^^^ n) (h ^^^ s.s1)
  | .alt => wymix bld (s.s1 ^^^ n) (wymix bld (a ^^^ s.s1) (b ^^^ sd))

/-- `wyhash(p, n, seed, s)` on a snapshot (R103). -/
def wyhash (bld : Build) (M : Nat → Byte) (p n : Nat) (seed : Word) (s : Secret) : Word :=
  let sd := hashSeed bld s seed
  if n ≤ 16 then
    let (a, b) := shortPair M p n
    hashFinish bld s (BitVec.ofNat 64 n) sd a b
  else
    let x := longLoops bld M s p n sd
    let (a, b) := longPair M x
    hashFinish bld s (BitVec.ofNat 64 n) x.sd a b

/-- `HASH` (R104). -/
def execHash (s : State) : Host.Outcome State Fault Refusal :=
  .next (loadCommand Instr.hash.opcode s.len.toNat
    (fun M => wyhash s.build M s.ptr.toNat s.len.toNat s.seed s.secret) s)

end Sys2Proof.Machine
end

