-- ==== Sys2Proof/Machine/Rand.lean ====
section
/-! DEFINITION. The wyrand PRNG: RAND (44_rand.md). -/

namespace Sys2Proof.Machine

/-- The state after one step, `t + P_RAND_INC` modulo 2^64 (R112). -/
def wyrandNext (t : Word) : Word := t + randInc

/-- The output of an already updated state (R112). -/
def wyrandOutput (bld : Build) (t : Word) : Word := wymix bld t (t ^^^ randXor)

/-- `wyrand_step(t)`: the new state and the output, computed from the updated state (R112). -/
def wyrandStep (bld : Build) (t : Word) : Word × Word :=
  (wyrandNext t, wyrandOutput bld (wyrandNext t))

/-- `RAND` (R114). -/
def execRand (s : State) : Host.Outcome State Fault Refusal :=
  let (t, r) := wyrandStep s.build s.rng
  .next { s with rng := t, lo := r }

end Sys2Proof.Machine
end

