-- ==== Sys2Proof/Machine/Secret.lean ====
section
/-! DEFINITION. Secret loading and derivation: DEFSEC, MKSEC (43_secret.md). -/

namespace Sys2Proof.Machine

/-- `DEFSEC` (R106). -/
def execDefsec (s : State) : Host.Outcome State Fault Refusal :=
  .next (writeSecret defaultSecret s)

/-- `TABLE70[r mod 70]`, the byte a draw stands for (R107). The index is always in the table. -/
def drawByte (r : Word) : Byte := table70.getD (r.toNat % 70) 0

/-- `n` draws from the private state `t`: the state after them and their bytes, first draw first. -/
def drawBytes (bld : Build) : Nat → Word → Word × List Byte
  | 0, t => (t, [])
  | n + 1, t =>
    let (t', r) := wyrandStep bld t
    let (t'', vs) := drawBytes bld n t'
    (t'', drawByte r :: vs)

/-- One attempt: eight draws, all made before it is judged (R107). Its word is `leWord` of the bytes:
byte `j` at bits `8j+7 .. 8j`. -/
def attempt (bld : Build) (t : Word) : Word × List Byte := drawBytes bld 8 t

/-- Acceptance: the bytes are pairwise distinct, and none is a byte of an earlier word (R108). -/
def attemptAccepted (used vs : List Byte) : Bool :=
  decide vs.Nodup && vs.all fun v => !used.contains v

/-- The attempts for one word, each continuing from the state the last one left, until one is
accepted (R108, R109). `fuel` bounds the attempts (R111); the result is the fuel left, the state and
the accepted bytes. -/
def searchWord (bld : Build) (used : List Byte) : Nat → Word → Option (Nat × Word × List Byte)
  | 0, _ => none
  | fuel + 1, t =>
    let (t', vs) := attempt bld t
    if attemptAccepted used vs then some (fuel, t', vs) else searchWord bld used fuel t'

/-- `make_secret(seed)` within a number of attempts (R109, R111): words 0 to 3 in order; `none` when
the fuel runs out. -/
def makeSecret (bld : Build) (fuel : Nat) (seed : Word) : Option Secret :=
  match searchWord bld [] fuel seed with
  | none => none
  | some (fuel1, t1, v0) =>
    match searchWord bld v0 fuel1 t1 with
    | none => none
    | some (fuel2, t2, v1) =>
      match searchWord bld (v0 ++ v1) fuel2 t2 with
      | none => none
      | some (fuel3, t3, v2) =>
        match searchWord bld (v0 ++ v1 ++ v2) fuel3 t3 with
        | none => none
        | some (_, _, v3) =>
          some { s0 := leWord v0, s1 := leWord v1, s2 := leWord v2, s3 := leWord v3 }

/-- `MKSEC` (R110): the four registers change together; exhausted fuel is a refusal (R111). -/
def execMksec (s : State) : Host.Outcome State Fault Refusal :=
  match makeSecret s.build s.mksecFuel s.seed with
  | some x => .next (writeSecret x s)
  | none => .refused .mksecFuelExhausted

end Sys2Proof.Machine
end

