-- ==== Sys2Proof/Machine/Transfer.lean ====
section
/-! DEFINITION. Register transfer: NOP, WRI, MOV, RD (46_transfer.md). -/

namespace Sys2Proof.Machine

/-- `NOP` (R120). -/
def execNop (s : State) : Host.Outcome State Fault Refusal :=
  .next s

/-- `WRI rd, imm` (R121, R122). -/
def execWri (dst : Reg) (imm : Word) (s : State) : Host.Outcome State Fault Refusal :=
  match writeReg dst imm s with
  | some t => .next t
  | none => .next (raise .illegalReg (Instr.wri dst imm).opcode s)

/-- `MOV rd, rs` (R123, R122): the source is checked first. -/
def execMov (dst src : Reg) (s : State) : Host.Outcome State Fault Refusal :=
  match readReg src s with
  | none => .next (raise .illegalReg (Instr.mov dst src).opcode s)
  | some v =>
    match writeReg dst v s with
    | some t => .next t
    | none => .next (raise .illegalReg (Instr.mov dst src).opcode s)

/-- `RD rs` (R124): appends to `OUT`. -/
def execRd (src : Reg) (s : State) : Host.Outcome State Fault Refusal :=
  match readReg src s with
  | some v => .next { s with out := s.out ++ [v] }
  | none => .next (raise .illegalReg (Instr.rd src).opcode s)

end Sys2Proof.Machine
end

