-- ==== Sys2Proof/Machine/Dispatch.lean ====
section
/-! DEFINITION. The meaning of every command, one arm each. -/

namespace Sys2Proof.Machine

def exec (i : Instr) (s : State) : Host.Outcome State Fault Refusal :=
  match i with
  | .nop => Sys2Proof.Machine.execNop s
  | .wri dst imm => Sys2Proof.Machine.execWri dst imm s
  | .mov dst src => Sys2Proof.Machine.execMov dst src s
  | .rd src => Sys2Proof.Machine.execRd src s
  | .mum => Sys2Proof.Machine.execMum s
  | .mix => Sys2Proof.Machine.execMix s
  | .rd64 => Sys2Proof.Machine.execRd64 s
  | .rd32 => Sys2Proof.Machine.execRd32 s
  | .rdsm => Sys2Proof.Machine.execRdsm s
  | .hash => Sys2Proof.Machine.execHash s
  | .defsec => Sys2Proof.Machine.execDefsec s
  | .mksec => Sys2Proof.Machine.execMksec s
  | .rand => Sys2Proof.Machine.execRand s
  | .u01 => Sys2Proof.Machine.execU01 s
  | .gau => Sys2Proof.Machine.execGau s

end Sys2Proof.Machine
end

