-- ==== Sys2Proof/Machine/Fetch.lean ====
section
/-! DEFINITION. Receiving a command from the port (10_state.md R39, 30_encoding.md R66, R71), and the
words an opcode-table word stands for. -/

namespace Sys2Proof.Machine

/-- The words of the stream the block has received or is being presented, in order. -/
def receivedWords : DecodeState → List CmdWord
  | .idle => []
  | .haveCommand w => [w]
  | .haveLow w immLo => [w, immLo]

/-- The decode state that holds the words of an incomplete command; such a command has at most two. -/
def holdWords : List CmdWord → DecodeState
  | [] => .idle
  | [w] => .haveCommand w
  | w :: immLo :: _ => .haveLow w immLo

/-- What one step finds at the port. -/
inductive Fetched where
  /-- a whole command -/
  | command (d : Decoded)
  /-- no whole command: the words there are (perhaps none) have been received into the decode state -/
  | waiting
  deriving DecidableEq, Repr

/-- Receives the next command: its words leave the port and the decode state is 0 again. If they
have not all arrived, the block receives those that have, and waits (R71). -/
def fetch (s : State) : Fetched × State :=
  let ws := receivedWords s.pending ++ s.port
  match takeCommand ws with
  | some (d, rest) => (.command d, { s with pending := .idle, port := rest })
  | none => (.waiting, { s with pending := holdWords ws, port := [] })

/-- The words of the instruction an opcode-table word stands for: as many as its first word asks for
(R71), the bits above `nbits` being 0. -/
def tableCommandWords (nbits w : Nat) : List CmdWord :=
  let words := wordsOfBytes (tableBytes nbits w)
  words.take (commandLength (words.headD 0))

end Sys2Proof.Machine
end

