-- ==== Sys2Proof/Machine/Step.lean ====
section
/-! DEFINITION. One step of the block: one command, atomically (10_state.md R23). -/

namespace Sys2Proof.Machine

/-- One step. A whole command at the port is received and executed. An illegal word raises
`ILLEGAL_CMD` once the words it occupies have been received (30_encoding.md R73). With no whole
command there, the block receives what there is and waits; with nothing there, nothing changes
(60_exceptions.md R144). -/
def step (s : State) : Host.Outcome State Fault Refusal :=
  match fetch s with
  | (.command (.command i), t) => exec i t
  | (.command (.illegal opc), t) => .next (raise .illegalCmd opc t)
  | (.waiting, t) => .next t

/-- `s` with the instruction of an opcode-table word presented at the port, before every word that
is there already, and no command half received, so that the next step runs it (log 4, log 19). -/
def State.withFetchWord (s : State) (nbits w : Nat) : State :=
  { s with pending := .idle, port := tableCommandWords nbits w ++ s.port }

end Sys2Proof.Machine
end

