-- ==== Sys2Proof/Machine/Env.lean ====
section
/-! DEFINITION. What the host does to the block between two steps (60_exceptions.md R139,
70_reset_and_hazards.md R158). A step of the block never makes one of these moves. -/

namespace Sys2Proof.Machine

/-- A move of the host. -/
inductive EnvMove where
  /-- presents words at the command port, in order (30_encoding.md R66) -/
  | present (ws : List CmdWord)
  /-- removes the value at the head of `OUT` (10_state.md R38) -/
  | takeOut
  /-- writes a byte of host memory, admitting its address (R139, 20_memory.md R49) -/
  | writeByte (a : Word) (v : Byte)
  /-- makes an address not admitted (20_memory.md R49, R61) -/
  | unmapByte (a : Word)
  /-- resets the block, with the draw `P_RNG_RESET` of this reset (R150, 10_state.md R31) -/
  | reset (draw : Word)
  deriving DecidableEq, Repr

/-- The value the host gets by `takeOut`. -/
def outHead (s : State) : Option Word := s.out.head?

/-- A reset: every piece of the block's state takes its reset value, a half received `WRI` is
discarded (R150, R152), and what is the host's (the words still to be presented, host memory) stays. -/
def resetBlock (draw : Word) (s : State) : State :=
  .resetWith s.build draw s.mem s.port s.mksecFuel

/-- The state after a move of the host. -/
def envApply (m : EnvMove) (s : State) : State :=
  match m with
  | .present ws => { s with port := s.port ++ ws }
  | .takeOut => { s with out := s.out.tail }
  | .writeByte a v => { s with mem := memWrite s.mem a.toNat v }
  | .unmapByte a => { s with mem := memUnmap s.mem a.toNat }
  | .reset draw => resetBlock draw s

end Sys2Proof.Machine
end

