-- ==== Sys2Proof/Safety.lean ====
section
/-! DEFINITION. The terms claims are stated in: the end of a run and its launch, the invariant of the
machine, frames, and second, clearer readings of what some commands compute. -/

namespace Sys2Proof.Machine

/-! ### Runs (70_reset_and_hazards.md R159, R160) -/

/-- The run has ended: no word is left and the decode state is 0 (R159). -/
def State.runEnded (s : State) : Prop := s.port = [] ∧ s.pending.remaining = 0

/-- The run has ended incomplete: the stream ended inside a `WRI` (R159). -/
def State.runIncomplete (s : State) : Prop := s.port = [] ∧ s.pending.remaining ≠ 0

/-- The observation at the end of a run, `(x[0..14], OUT)` (R159). -/
def State.observation (s : State) : List Word × List Word :=
  ([s.a, s.b, s.lo, s.hi, s.seed, s.ptr, s.len, s.rng, s.sec0, s.sec1, s.sec2, s.sec3,
    s.status, configWord s.build, s.faddr], s.out)

/-- The premises clean status, empty output and no partial command of a launch (R160). -/
def State.launchReady (s : State) : Prop :=
  s.status = 0 ∧ s.faddr = 0 ∧ s.out = [] ∧ s.pending = .idle

/-- Every byte of `[p, p + n)` exists and is admitted, so `CheckRead` passes (20_memory.md R51, R52). -/
def Readable (m : Memory) (p : Word) (n : Nat) : Prop :=
  p.toNat + n ≤ addressSpace ∧ ∀ i, i < n → memAdmits m (p.toNat + i) = true

/-! ### The invariant -/

/-- What `STATUS` and `FADDR` can hold (10_state.md R32, R34; 60_exceptions.md R130): the reserved
bits are 0; without an error both are 0; with one, the code is 1 to 5, `EOPC` is an opcode that can
raise it, and only a memory error leaves an address. -/
def StatusInv (s : State) : Prop :=
  s.status &&& ~~~(0xFFF3 : Word) = 0 ∧
  (statusErr s.status = false → s.status = 0 ∧ s.faddr = 0) ∧
  (statusErr s.status = true →
    statusEcode s.status = 1 ∨
    statusEcode s.status = 2 ∧ statusEopc s.status ∈ [0x01, 0x02, 0x03] ∨
    statusEcode s.status = 3 ∧ statusEopc s.status = 0x22 ∨
    statusEcode s.status = 4 ∧ statusEopc s.status ∈ [0x20, 0x21, 0x22, 0x30] ∨
    statusEcode s.status = 5 ∧ statusEopc s.status ∈ [0x20, 0x21, 0x22, 0x30]) ∧
  (statusEcode s.status ≠ 4 → statusEcode s.status ≠ 5 → s.faddr = 0)

/-- A half received command is a `WRI` (10_state.md R39, 30_encoding.md R71). -/
def DecodeInv (d : DecodeState) : Prop :=
  match d with
  | .idle => True
  | .haveCommand w => fieldOpc w = 0x01
  | .haveLow w _ => fieldOpc w = 0x01

/-- The invariant of the machine: `STATUS` and `FADDR` hold what errors can leave, the decode state
holds a `WRI`, and memory is in its canonical form. -/
def Inv (s : State) : Prop :=
  StatusInv s ∧ DecodeInv s.pending ∧ Memory.wf s.mem

/-! ### What a command touches -/

/-- The size of the read set at `PTR` of a command that reads memory (20_memory.md R50). `RDSM` has
one for `LEN` 1, 2 and 3 only. -/
def readSetSize (i : Instr) (s : State) : Option Nat :=
  match i with
  | .rd64 => some 8
  | .rd32 => some 4
  | .rdsm => if 1 ≤ s.len.toNat ∧ s.len.toNat ≤ 3 then some s.len.toNat else none
  | .hash => some s.len.toNat
  | _ => none

/-- The registers a command writes when it raises no error: the column "written by" of 10_state.md
R21. A write to `STATUS` clears `FADDR` too (46_transfer.md R122). -/
def writtenRegs : Instr → List Reg
  | .wri dst _ => if dst = .status then [.status, .faddr] else [dst]
  | .mov dst _ => if dst = .status then [.status, .faddr] else [dst]
  | .mum => [.lo, .hi]
  | .mix => [.lo]
  | .rd64 => [.lo]
  | .rd32 => [.lo]
  | .rdsm => [.lo]
  | .hash => [.lo]
  | .defsec => [.sec0, .sec1, .sec2, .sec3]
  | .mksec => [.sec0, .sec1, .sec2, .sec3]
  | .rand => [.rng, .lo]
  | .u01 => [.lo]
  | .gau => [.lo]
  | .nop => []
  | .rd _ => []

/-- The errors a decoded command can raise: the column "raised by" of 60_exceptions.md R130. -/
def mayRaise (i : Instr) (e : CmdError) : Prop :=
  match e with
  | .illegalCmd => False
  | .illegalReg => i.opcode ∈ ([0x01, 0x02, 0x03] : List Byte)
  | .illegalLen => i = .rdsm
  | .range _ => i ∈ [Instr.rd64, .rd32, .rdsm, .hash]
  | .bus _ => i ∈ [Instr.rd64, .rd32, .rdsm, .hash]

/-- The commands that write `STATUS` (46_transfer.md R122). -/
def writesStatus : Instr → Prop
  | .wri dst _ => dst = .status
  | .mov dst src => dst = .status ∧ src ≠ .rsv15
  | _ => False

/-- The commands that read `STATUS` or `FADDR` as an operand. -/
def readsStatus : Instr → Prop
  | .mov _ src => src = .status ∨ src = .faddr
  | .rd src => src = .status ∨ src = .faddr
  | _ => False

/-- An illegal first word: an unassigned `OPC`, or a must-be-zero field that is not 0 (30_encoding.md
R68, R73). `RD` is used by WRI and MOV, `RS` by MOV and RD. -/
def illegalWord (w : CmdWord) : Prop :=
  fieldOpc w ∉ ([0x00, 0x01, 0x02, 0x03, 0x10, 0x11, 0x20, 0x21, 0x22, 0x30, 0x40, 0x41, 0x50, 0x60,
    0x61] : List Byte) ∨
  fieldRsv w ≠ 0 ∨
  fieldRd w ≠ 0 ∧ fieldOpc w ∉ ([0x01, 0x02] : List Byte) ∨
  fieldRs w ≠ 0 ∧ fieldOpc w ∉ ([0x02, 0x03] : List Byte)

/-! ### Frames (00_scope.md R13: "A rule writes only the registers it names") -/

/-- Everything that is not a register, and that no command but `RD` (on `OUT`) changes. -/
def sameAround (s t : State) : Prop :=
  t.build = s.build ∧ t.out = s.out ∧ t.pending = s.pending ∧ t.port = s.port ∧
  t.mksecFuel = s.mksecFuel ∧ ∀ a, memByte t.mem a = memByte s.mem a

/-- Only the registers of the list may differ. -/
def sameRegsBut (written : List Reg) (s t : State) : Prop :=
  ∀ r, r ∉ written → readReg r t = readReg r s

/-- The states agree on everything but the registers of the list. -/
def frame (written : List Reg) (s t : State) : Prop :=
  sameRegsBut written s t ∧ sameAround s t

/-! ### Binary64 (00_scope.md R16) -/

/-- `f64(b)` of a finite pattern; `none` for the patterns of the top exponent (infinities and NaN). -/
def f64 (v : Word) : Option ℚ :=
  let sign : ℚ := if v.getLsbD 63 then -1 else 1
  let e := (v.extractLsb' 52 11).toNat
  let f := (v.extractLsb' 0 52).toNat
  if e = 2047 then none
  else if e = 0 then some (sign * f / 2 ^ 1074)
  else some (sign * (2 ^ 52 + f) * 2 ^ e / 2 ^ 1075)

/-- The number of 1 bits of a word (00_scope.md R11). -/
def popcount (x : Word) : Nat := (List.range 64).countP fun i => x.getLsbD i

/-- `v` is the pattern of the real `r` rounded to nearest, ties to even (R16 `RNE`): it is finite, no
finite pattern is nearer to `r`, and if another value is as near, the fraction of `v` is even. -/
def RoundsTo (r : ℚ) (v : Word) : Prop :=
  ∃ x, f64 v = some x ∧ ∀ w y, f64 w = some y →
    |x - r| ≤ |y - r| ∧ (|x - r| = |y - r| → y ≠ x → v.getLsbD 0 = false)

/-! ### The hash of a byte buffer, read as a fold -/

/-- The bytes `[p, p + n)` of a snapshot. -/
def bufferBytes (M : Nat → Byte) (p n : Nat) : List Byte :=
  (List.range n).map fun i => M (p + i)

/-- The little-endian word of the 8 bytes at offset `k`. -/
def wordAt (bytes : List Byte) (k : Nat) : Word := leWord ((bytes.drop k).take 8)

/-- The little-endian word of the 4 bytes at offset `k`. -/
def halfAt (bytes : List Byte) (k : Nat) : Word := leWord ((bytes.drop k).take 4)

/-- How many blocks the block loop takes of `n > 16` bytes (42_hash.md R99). -/
def blockCount (bld : Build) (n : Nat) : Nat :=
  if bld.blockGe48 then n / 48 else (n - 1) / 48

/-- The three accumulators after the first `count` blocks of the buffer. -/
def foldBlocks (bld : Build) (s : Secret) (bytes : List Byte) (sd : Word) (count : Nat) :
    Word × Word × Word :=
  (List.range count).foldl
    (fun (x, y, z) j =>
      (wymix bld (wordAt bytes (48 * j) ^^^ s.s1) (wordAt bytes (48 * j + 8) ^^^ x),
       wymix bld (wordAt bytes (48 * j + 16) ^^^ s.s2) (wordAt bytes (48 * j + 24) ^^^ y),
       wymix bld (wordAt bytes (48 * j + 32) ^^^ s.s3) (wordAt bytes (48 * j + 40) ^^^ z)))
    (sd, sd, sd)

/-- The accumulator after `count` chunks from offset `k`. -/
def foldChunks (bld : Build) (s : Secret) (bytes : List Byte) (k : Nat) (sd : Word) (count : Nat) :
    Word :=
  (List.range count).foldl
    (fun x j =>
      wymix bld (wordAt bytes (k + 16 * j) ^^^ s.s1) (wordAt bytes (k + 16 * j + 8) ^^^ x))
    sd

/-- wyhash of a byte buffer, with no address, cursor or loop test in it: the blocks and chunks are
counted beforehand, and the accumulators are always merged (42_hash.md R105). -/
def hashBytes (bld : Build) (bytes : List Byte) (seed : Word) (s : Secret) : Word :=
  let n := bytes.length
  let sd := hashSeed bld s seed
  if n ≤ 16 then
    let (a, b) : Word × Word :=
      match bytes with
      | [] => (0, 0)
      | [x] => ((x ++ x ++ x).setWidth 64, 0)
      | [x, y] => ((x ++ y ++ y).setWidth 64, 0)
      | [x, y, z] => ((x ++ y ++ z).setWidth 64, 0)
      | _ =>
        if n ≤ 8 then (halfAt bytes 0, halfAt bytes (n - 4))
        else (wordAt bytes 0, wordAt bytes (n - 8))
    hashFinish bld s (BitVec.ofNat 64 n) sd a b
  else
    let k := 48 * blockCount bld n
    let (x, y, z) := foldBlocks bld s bytes sd (blockCount bld n)
    let sd' := foldChunks bld s bytes k (x ^^^ y ^^^ z) ((n - k - 1) / 16)
    hashFinish bld s (BitVec.ofNat 64 n) sd' (wordAt bytes (n - 16)) (wordAt bytes (n - 8))

/-! ### The search of MKSEC as a relation (43_secret.md R109, R111) -/

/-- From the private state `t`, with the byte values `used`, the first accepted attempt leaves the
state `t'` and has the bytes `vs`. There is no bound on the rejected attempts before it. -/
inductive SearchFinds (bld : Build) (used : List Byte) : Word → Word → List Byte → Prop where
  | accept (t t' : Word) (vs : List Byte) :
      attempt bld t = (t', vs) → attemptAccepted used vs = true →
      SearchFinds bld used t t' vs
  | reject (t t1 t' : Word) (rejected vs : List Byte) :
      attempt bld t = (t1, rejected) → attemptAccepted used rejected = false →
      SearchFinds bld used t1 t' vs → SearchFinds bld used t t' vs

/-- `make_secret(seed)` ends with the secret `x` (R109). -/
def MakesSecret (bld : Build) (seed : Word) (x : Secret) : Prop :=
  ∃ t1 t2 t3 t4 v0 v1 v2 v3,
    SearchFinds bld [] seed t1 v0 ∧
    SearchFinds bld v0 t1 t2 v1 ∧
    SearchFinds bld (v0 ++ v1) t2 t3 v2 ∧
    SearchFinds bld (v0 ++ v1 ++ v2) t3 t4 v3 ∧
    x = { s0 := leWord v0, s1 := leWord v1, s2 := leWord v2, s3 := leWord v3 }

/-- The eight bytes of a word, lowest first. -/
def wordBytes (w : Word) : List Byte :=
  (List.range 8).map fun j => w.extractLsb' (8 * j) 8

/-- The 32 bytes of a secret. -/
def secretBytes (x : Secret) : List Byte :=
  wordBytes x.s0 ++ wordBytes x.s1 ++ wordBytes x.s2 ++ wordBytes x.s3

end Sys2Proof.Machine
end

