-- ==== Sys2Proof/Certificates/Slice0/Obligations.lean ====
section
/-! DEFINITION. The statements about the block, for the provers. Each docstring names the rule of
spec/ it formalises. -/

open Sys2Proof Sys2Proof.Machine

/-! ### Encoding (30_encoding.md) -/

/-- The example words of R78, R70 and of 95_test_vectors.md 2.7 decode to what they stand for. -/
def Obligations.SpecExampleWordsDecode : Prop :=
  takeCommand [0x00000010] = some (.command .mum, []) ∧
  takeCommand [0x00002003] = some (.command (.rd .lo), []) ∧
  takeCommand [0x00002002] = some (.command (.mov .a .lo), []) ∧
  takeCommand [0x00000701, 0x0000002a, 0x00000000] = some (.command (.wri .rng 42), []) ∧
  takeCommand [0x00000001, 0x55667788, 0x11223344] =
    some (.command (.wri .a 0x1122334455667788), []) ∧
  takeCommand [0x00000022] = some (.command .rdsm, []) ∧
  takeCommand [0x00000030] = some (.command .hash, []) ∧
  takeCommand [0x00000041] = some (.command .mksec, []) ∧
  takeCommand [0x00000050] = some (.command .rand, []) ∧
  takeCommand [0x00000061] = some (.command .gau, []) ∧
  takeCommand [0x00000004] = some (.illegal 0x04, []) ∧
  takeCommand [0x00000110] = some (.illegal 0x10, []) ∧
  takeCommand [0x00010000] = some (.illegal 0x00, []) ∧
  takeCommand [0x00001001, 0xaaaaaaaa, 0xbbbbbbbb] = some (.illegal 0x01, [])

/-- Decode and encode agree on words: every command, with every operand, is read back from its own
words, whatever follows them (R67 to R71). -/
def Obligations.DecodeReadsBackEveryEncodedCommand : Prop :=
  ∀ (i : Instr) (rest : List CmdWord), takeCommand (encode i ++ rest) = some (.command i, rest)

/-- The other direction: a word that decodes to a command is that command's encoding, so no two words
mean the same command and no bit of a legal word is dropped. -/
def Obligations.LegalWordsAreTheEncodingOfTheirCommand : Prop :=
  ∀ (w immLo immHi : CmdWord) (i : Instr), decodeCommand w immLo immHi = .command i →
    encode i = if fieldOpc w = 0x01 then [w, immLo, immHi] else [w]

/-- R72: "At most one row matches any word, because every row fixes `OPC`". -/
def Obligations.AtMostOneOpcodeRowSelectsAWord : Prop :=
  opcodeMap.length = 15 ∧
  ∀ (j k : Fin 15) (w : CmdWord) (r r' : OpcodeRow), opcodeMap[j.val]? = some r →
    opcodeMap[k.val]? = some r' → r.selects w = true → r'.selects w = true → j = k

/-- R69: a command of format N is one word, its opcode zero-extended, and no other word of that opcode
is that command. -/
def Obligations.FormatNFixesAllBits : Prop :=
  ∀ i ∈ [Instr.nop, .mum, .mix, .rd64, .rd32, .rdsm, .hash, .defsec, .mksec, .rand, .u01, .gau],
    encode i = [i.opcode.setWidth 32] ∧
    ∀ w immLo immHi : CmdWord, fieldOpc w = i.opcode →
      (decodeCommand w immLo immHi = .command i ↔ w = i.opcode.setWidth 32)

/-- R73: which words are illegal, how many words they occupy, and that the error is their whole
effect, whether their words arrived together or some were held from before. That received words are
held in the decode state is the model's choice (log 6); that the error of an illegal word of opcode 0x01
is raised in the step that has received all three words is the model's reading (log 13, DEDUCED). -/
def Obligations.IllegalWordsRaiseIllegalCmd : Prop :=
  ∀ (w immLo immHi : CmdWord),
    (illegalWord w ↔ decodeCommand w immLo immHi = .illegal (fieldOpc w)) ∧
    (¬ illegalWord w ↔ ∃ i, decodeCommand w immLo immHi = .command i) ∧
    (illegalWord w → ∀ (s : State) (rest : List CmdWord),
      (fieldOpc w = 0x01 → receivedWords s.pending ++ s.port = w :: immLo :: immHi :: rest →
        step s = .next (raise .illegalCmd (fieldOpc w) { s with pending := .idle, port := rest })) ∧
      (fieldOpc w ≠ 0x01 → receivedWords s.pending ++ s.port = w :: rest →
        step s = .next (raise .illegalCmd (fieldOpc w) { s with pending := .idle, port := rest })))

/-- R71: the length of a command follows from `OPC`, and a command of opcode 0x01 whose words have not
all arrived changes no register, no output and no memory. That its words are held in the decode state
is the model's choice (log 6); that an illegal word of opcode 0x01 raises nothing until its three words
have arrived is the model's reading (log 13, DEDUCED). -/
def Obligations.AnIncompleteWriHasNotStarted : Prop :=
  ∀ (w immLo immHi : CmdWord) (rest : List CmdWord) (s : State),
    (fieldOpc w ≠ 0x01 → takeCommand (w :: rest) = some (decodeCommand w 0 0, rest)) ∧
    (fieldOpc w = 0x01 →
      takeCommand (w :: immLo :: immHi :: rest) = some (decodeCommand w immLo immHi, rest)) ∧
    (fieldOpc w = 0x01 →
      receivedWords s.pending ++ s.port = [w] ∨ receivedWords s.pending ++ s.port = [w, immLo] →
      ∃ t, step s = .next t ∧
        t = { s with pending := t.pending, port := [] } ∧
        t.pending.remaining + (receivedWords s.pending ++ s.port).length = 3)

/-- It does not matter how the three words of a `WRI` arrive: one at a time, with a step of the
waiting block after each, or all at once (R71, R39). -/
def Obligations.WordsMayArriveOneAtATime : Prop :=
  ∀ (s : State) (w immLo immHi : CmdWord), s.pending = .idle → s.port = [] → fieldOpc w = 0x01 →
    ∃ s1 s2, step (envApply (.present [w]) s) = .next s1 ∧
      step (envApply (.present [immLo]) s1) = .next s2 ∧
      step (envApply (.present [immHi]) s2) =
        step (envApply (.present [w, immLo, immHi]) s)

/-- R77: words travel as four bytes each, least significant first, a `WRI` as the bytes of its command
word, `IMM_LO` and `IMM_HI`, and nothing is lost. -/
def Obligations.WordsSurviveTheirBytes : Prop :=
  (∀ (w : CmdWord) (k : Fin 4), (wordToBytes w)[k.val]? = some (w.extractLsb' (8 * k.val) 8)) ∧
  (∀ ws : List CmdWord, wordsOfBytes (wordsToBytes ws) = ws) ∧
  (∀ i : Instr, decodeBytes (encodeBytes i) = some (.command i)) ∧
  (∀ (dst : Reg) (imm : Word), encodeBytes (.wri dst imm) =
    wordToBytes (0x01 ||| (dst.index.setWidth 32 <<< 8)) ++
      wordToBytes (imm.extractLsb' 0 32) ++ wordToBytes (imm.extractLsb' 32 32)) ∧
  encodeBytes (.wri .a 0x1122334455667788) =
    [0x01, 0x00, 0x00, 0x00, 0x88, 0x77, 0x66, 0x55, 0x44, 0x33, 0x22, 0x11]

/-! ### The step -/

/-- A step runs the decoded command: when the words received and presented begin with a command, the
step is that command's meaning, with its words gone and the decode state 0. -/
def Obligations.StepRunsTheCommandAtThePort : Prop :=
  ∀ (s : State) (i : Instr) (rest : List CmdWord),
    takeCommand (receivedWords s.pending ++ s.port) = some (.command i, rest) →
    step s = exec i { s with pending := .idle, port := rest }

/-- A block to which nothing is presented keeps all its state (R144: "all state persists"). That it
waits rather than stops is the model's reading (log 5). -/
def Obligations.AWaitingBlockKeepsItsState : Prop :=
  ∀ s : State, s.port = [] → DecodeInv s.pending → step s = .next s

/-- The block never stops, but for an `MKSEC` whose search uses up the fuel (R134, R111). -/
def Obligations.OnlyMksecIsEverRefused : Prop :=
  ∀ s : State, (∃ t, step s = .next t) ∨
    step s = .refused .mksecFuelExhausted ∧
    makeSecret s.build s.mksecFuel s.seed = none ∧
    ∃ rest, takeCommand (receivedWords s.pending ++ s.port) = some (.command .mksec, rest)

/-! ### Reset (70_reset_and_hazards.md) -/

/-- R150, R40: the value of every piece of state after a reset, for every build and every draw. The
draw stands in `RNG`, unconstrained. -/
def Obligations.ResetLeavesTheStatedValues : Prop :=
  ∀ (s : State) (draw : Word),
    let t := envApply (.reset draw) s
    (∀ r ∈ [Reg.a, .b, .lo, .hi, .seed, .ptr, .len, .status, .faddr], readReg r t = some 0) ∧
    readReg .sec0 t = some 0xa0761d6478bd642f ∧ readReg .sec1 t = some 0xe7037ed1a0b428db ∧
    readReg .sec2 t = some 0x8ebc6af09c88c6e3 ∧ readReg .sec3 t = some 0x589965cc75374cc3 ∧
    readReg .rng t = some draw ∧ readReg .config t = readReg .config s ∧
    t.out = [] ∧ t.pending.remaining = 0

/-- The reset state of the model: R40's values in the default build, with `CONFIG = 0x2` (R33) and
the free `RNG`. That memory and the port are empty is the model's choice (logs 3 and 4). -/
def Obligations.ResetStateIsTheDefaultBuild : Prop :=
  State.reset = envApply (.reset Config.rngReset) State.reset ∧
  readReg .config State.reset = some 0x2 ∧ State.reset.launchReady ∧ State.reset.runEnded

/-- R33: the bits of `CONFIG`; every step and every move of the host keeps it; a write to it raises
`ILLEGAL_REG`. -/
def Obligations.ConfigReportsTheBuild : Prop :=
  ∀ s : State, ∃ v, readReg .config s = some v ∧
    v.getLsbD 0 = s.build.xorStronger ∧ v.getLsbD 1 = true ∧
    v.getLsbD 2 = decide (s.build.hashForm = .alt) ∧ v.getLsbD 3 = s.build.blockGe48 ∧
    v.getLsbD 4 = decide (s.build.gauScale = .literal) ∧ v >>> 5 = 0 ∧
    (s.build = .default → v = 0x2) ∧
    (∀ t, step s = .next t → readReg .config t = some v) ∧
    (∀ m : EnvMove, readReg .config (envApply m s) = some v) ∧
    (∀ imm, exec (.wri .config imm) s = .next (raise .illegalReg 0x01 s)) ∧
    (∀ src, exec (.mov .config src) s = .next (raise .illegalReg 0x02 s))

/-! ### Whole-machine rules -/

/-- R48: "The block never writes host memory". Nor does it change the build (R7, R33), which the model
holds as a field of State (log 1), or the model's own fuel (log 7). -/
def Obligations.NoStepWritesMemoryOrTheBuild : Prop :=
  ∀ s t : State, step s = .next t →
    t.mem = s.mem ∧ t.build = s.build ∧ t.mksecFuel = s.mksecFuel

/-- R13, R21, R130: a command changes no register but those its rule names, and, on an error it may
raise, `STATUS` and `FADDR`. The column "written by" of R21 is `writtenRegs`, the column "raised by" of
R130 is `mayRaise`. -/
def Obligations.CommandsWriteOnlyTheRegistersTheyName : Prop :=
  ∀ (i : Instr) (s t : State), exec i s = .next t →
    (∀ r, r ∉ writtenRegs i → r ≠ .status → r ≠ .faddr → readReg r t = readReg r s) ∧
    (t.status ≠ s.status ∨ t.faddr ≠ s.faddr →
      writesStatus i ∨ ∃ e, mayRaise i e ∧ t = raise e i.opcode s)

/-- R38: an `RD` of a legal register appends to `OUT`, the host removes values from its head, reset
empties it, and "Nothing else reads or writes it": no other step writes it, no step and no move of the
host but these depends on what it holds. -/
def Obligations.OutIsAQueueThatOnlyRdFills : Prop :=
  ∀ s : State,
    (∀ r rest, r ≠ .rsv15 →
      takeCommand (receivedWords s.pending ++ s.port) = some (.command (.rd r), rest) →
      ∃ v, readReg r s = some v ∧
        step s = .next { s with pending := .idle, port := rest, out := s.out ++ [v] }) ∧
    (∀ t, step s = .next t →
      t.out = s.out ∨
      ∃ r v rest, takeCommand (receivedWords s.pending ++ s.port) = some (.command (.rd r), rest) ∧
        readReg r s = some v ∧ t.out = s.out ++ [v]) ∧
    (∀ o t, step s = .next t → ∃ added, t.out = s.out ++ added ∧
      step { s with out := o } = .next { t with out := o ++ added }) ∧
    (∀ o r, step s = .refused r → step { s with out := o } = .refused r) ∧
    (∀ v vs, s.out = v :: vs →
      outHead s = some v ∧ envApply .takeOut s = { s with out := vs }) ∧
    (∀ draw, (envApply (.reset draw) s).out = [] ∧
      ∀ o, envApply (.reset draw) { s with out := o } = envApply (.reset draw) s) ∧
    (∀ (m : EnvMove) (o : List Word), m ≠ .takeOut → (∀ draw, m ≠ .reset draw) →
      envApply m { s with out := o } = { envApply m s with out := o })

/-- The invariant holds after every reset, over any memory in canonical form. -/
def Obligations.InvHoldsAfterReset : Prop :=
  Inv State.reset ∧ ∀ (bld : Build) (draw : Word) (m : Memory) (ws : List CmdWord) (fuel : Nat),
    Memory.wf m → Inv (.resetWith bld draw m ws fuel)

/-- Headline: every step keeps the invariant. `STATUS` and `FADDR` only ever hold what R32, R34 and
R130 let errors leave, the decode state only ever holds a `WRI` (R39), memory stays canonical. -/
def Obligations.EveryStepKeepsInv : Prop :=
  ∀ s t : State, Inv s → step s = .next t → Inv t

/-- Every move of the host keeps the invariant as well. -/
def Obligations.EveryHostMoveKeepsInv : Prop :=
  ∀ (m : EnvMove) (s : State), Inv s → Inv (envApply m s)

/-- R56, R49: a host write is seen by later commands, at its address only; unmapping likewise. Memory
as a list (log 3) and unmapping as a move of the host (log 22) are the model's choices. -/
def Obligations.HostWritesAreSeenAtTheirAddressOnly : Prop :=
  ∀ (s : State) (a : Word) (v : Byte) (x : Nat),
    memByte (envApply (.writeByte a v) s).mem x =
      (if x = a.toNat then some v else memByte s.mem x) ∧
    memByte (envApply (.unmapByte a) s).mem x =
      (if x = a.toNat then none else memByte s.mem x)

/-- R36: "every command computes the same result whatever STATUS holds". A command that does not name
`STATUS` or `FADDR` as its source leaves the same registers, output and surroundings from two states
that differ in these two only. -/
def Obligations.ResultsDoNotDependOnStatus : Prop :=
  ∀ (i : Instr) (s : State) (v f : Word), ¬ readsStatus i →
    match exec i s, exec i { s with status := v, faddr := f } with
    | .next t, .next t' => frame [.status, .faddr] t t'
    | .refused r, .refused r' => r = r'
    | _, _ => False

/-- R50: "No command reads a byte outside its read set". From two states whose memories agree on the
command's read set (if it has one), a command does the same. -/
def Obligations.NoCommandReadsOutsideItsReadSet : Prop :=
  ∀ (i : Instr) (s : State) (m : Memory),
    (∀ n, readSetSize i s = some n →
      ∀ k, k < n → memByte m (s.ptr.toNat + k) = memByte s.mem (s.ptr.toNat + k)) →
    match exec i s, exec i { s with mem := m } with
    | .next t, .next t' => t' = { t with mem := m }
    | .refused r, .refused r' => r = r'
    | _, _ => False

/-! ### Errors (60_exceptions.md) -/

/-- R132: what raising an error does. The first error since `STATUS` was written sets `ERR`, `ECODE`,
`EOPC` and, for `RANGE` and `BUS`, `FADDR`; a later one sets `MULTI`; nothing else changes. The `opc` a
command records (`i.opcode` in the statements below) is bits 7:0 of its first word. -/
def Obligations.RaiseRecordsTheFirstError : Prop :=
  (∀ (i : Instr) (w : CmdWord) (ws : List CmdWord), encode i = w :: ws → i.opcode = fieldOpc w) ∧
  ∀ (e : CmdError) (opc : Byte) (s : State),
    (statusErr s.status = false →
      statusErr (raise e opc s).status = true ∧
      statusEcode (raise e opc s).status =
        (match e with
        | .illegalCmd => 1 | .illegalReg => 2 | .illegalLen => 3 | .range _ => 4 | .bus _ => 5) ∧
      statusEopc (raise e opc s).status = opc ∧
      (raise e opc s).status &&& ~~~(0xFFF1 : Word) = s.status &&& ~~~(0xFFF1 : Word) ∧
      (raise e opc s).faddr = (match e with | .range p => p | .bus a => a | _ => s.faddr)) ∧
    (statusErr s.status = true →
      statusMulti (raise e opc s).status = true ∧
      (raise e opc s).status &&& ~~~(0x2 : Word) = s.status &&& ~~~(0x2 : Word) ∧
      (raise e opc s).faddr = s.faddr) ∧
    frame [.status, .faddr] s (raise e opc s)

/-- R122: a write to `STATUS` clears `STATUS` and `FADDR` whatever is written, and nothing else
clears a recorded error: any other step leaves `STATUS` as it is or sets `MULTI`, and keeps `FADDR`. -/
def Obligations.OnlyAStatusWriteClearsAnError : Prop :=
  (∀ (v : Word) (s : State), exec (.wri .status v) s = .next { s with status := 0, faddr := 0 }) ∧
  (∀ (src : Reg) (s : State), src ≠ .rsv15 →
    exec (.mov .status src) s = .next { s with status := 0, faddr := 0 }) ∧
  (∀ s t : State, statusErr s.status = true → step s = .next t →
    (t.status = s.status ∨ t.status = s.status ||| 2) ∧ t.faddr = s.faddr ∨
    ∃ i rest, takeCommand (receivedWords s.pending ++ s.port) = some (.command i, rest) ∧
      writesStatus i)

/-- R74, R35: the register indices that raise `ILLEGAL_REG`, which is then the whole effect, while
writing index 12 is legal and clears it. -/
def Obligations.IllegalRegisterIndicesRaise : Prop :=
  ∀ s : State,
    exec (.rd .rsv15) s = .next (raise .illegalReg 0x03 s) ∧
    (∀ dst, exec (.mov dst .rsv15) s = .next (raise .illegalReg 0x02 s)) ∧
    (∀ dst ∈ [Reg.config, .faddr, .rsv15],
      (∀ v, exec (.wri dst v) s = .next (raise .illegalReg 0x01 s)) ∧
      (∀ src, exec (.mov dst src) s = .next (raise .illegalReg 0x02 s))) ∧
    (∀ i : Instr, i.wellFormed = false → exec i s = .next (raise .illegalReg i.opcode s)) ∧
    (∀ v, exec (.wri .status v) s = .next { s with status := 0, faddr := 0 })

/-- R51, R52, R63: which error `CheckRead` finds, and that it passes exactly when every byte of the
read set exists and is admitted. -/
def Obligations.CheckReadFindsTheRightError : Prop :=
  ∀ (m : Memory) (p : Word) (n : Nat),
    (2 ^ 64 < p.toNat + n → checkRead m p n = some (.range p)) ∧
    (p.toNat + n ≤ 2 ^ 64 → ∀ a : Word,
      checkRead m p n = some (.bus a) ↔
        p.toNat ≤ a.toNat ∧ a.toNat < p.toNat + n ∧ memAdmits m a.toNat = false ∧
        ∀ x, p.toNat ≤ x → x < a.toNat → memAdmits m x = true) ∧
    (checkRead m p n = none ↔ Readable m p n)

/-- R51, R52: a memory command whose read set wraps raises `RANGE` with `FADDR` at `PTR`; one that
meets an address not admitted raises `BUS` with the lowest such address; with every address admitted
(a read set of size 0 always is) it completes with a value in `LO`. `RDSM` with an illegal `LEN`, which
has no read set, raises `ILLEGAL_LEN`, whatever memory holds. An error is the whole effect. -/
def Obligations.MemoryCommandsRaiseInOrder : Prop :=
  ∀ (i : Instr) (s : State),
    (∀ n, readSetSize i s = some n → 2 ^ 64 < s.ptr.toNat + n →
      exec i s = .next (raise (.range s.ptr) i.opcode s)) ∧
    (∀ n, readSetSize i s = some n → s.ptr.toNat + n ≤ 2 ^ 64 →
      ∀ a : Word, s.ptr.toNat ≤ a.toNat → a.toNat < s.ptr.toNat + n →
        memAdmits s.mem a.toNat = false →
        (∀ x, s.ptr.toNat ≤ x → x < a.toNat → memAdmits s.mem x = true) →
        exec i s = .next (raise (.bus a) i.opcode s)) ∧
    (∀ n, readSetSize i s = some n → Readable s.mem s.ptr n →
      ∃ v, exec i s = .next { s with lo := v }) ∧
    (i = .rdsm → s.len.toNat = 0 ∨ 3 < s.len.toNat →
      exec i s = .next (raise .illegalLen i.opcode s))

/-- R130: "No command raises an error for any value of its data operands". A legal command that reads
no memory raises nothing, whatever the registers hold (`NOP`, `MUM`, `MIX`, `DEFSEC`, `MKSEC`, `RAND`,
`U01`, `GAU`, and `WRI`, `MOV` and `RD` with legal indices). What any command leaves in `STATUS` and
`FADDR`, a memory command too, depends on these two, on `PTR`, `LEN` and memory alone. -/
def Obligations.DataOperandsNeverRaise : Prop :=
  (∀ (i : Instr) (s t : State), i.wellFormed = true → i ∉ [Instr.rd64, .rd32, .rdsm, .hash] →
    ¬ writesStatus i → exec i s = .next t → t.status = s.status ∧ t.faddr = s.faddr) ∧
  (∀ (i : Instr) (s s' t t' : State), s'.ptr = s.ptr → s'.len = s.len → s'.mem = s.mem →
    s'.status = s.status → s'.faddr = s.faddr →
    exec i s = .next t → exec i s' = .next t' → t'.status = t.status ∧ t'.faddr = t.faddr)

/-! ### Register transfer (46_transfer.md) -/

/-- R120: `NOP` changes nothing. -/
def Obligations.NopChangesNothing : Prop :=
  encode .nop = [0x00000000] ∧ ∀ s : State, exec .nop s = .next s

/-- R121: `WRI` completes for every destination: a general register takes the immediate and nothing
else changes, `STATUS` is cleared, and 13, 14 and 15 raise `ILLEGAL_REG`. -/
def Obligations.WriWritesItsImmediate : Prop :=
  ∀ (dst : Reg) (imm : Word) (s : State),
    encode (.wri dst imm) =
      [0x01 ||| (dst.index.setWidth 32 <<< 8), imm.extractLsb' 0 32, imm.extractLsb' 32 32] ∧
    ∃ t, exec (.wri dst imm) s = .next t ∧
    (dst.index.toNat < 12 → readReg dst t = some imm ∧ frame [dst] s t) ∧
    (dst.index.toNat = 12 →
      readReg .status t = some 0 ∧ readReg .faddr t = some 0 ∧ frame [.status, .faddr] s t) ∧
    (12 < dst.index.toNat → t = raise .illegalReg 0x01 s)

/-- R123: `MOV` completes for every pair of registers, the source being checked first. -/
def Obligations.MovCopiesItsSource : Prop :=
  ∀ (dst src : Reg) (s : State),
    encode (.mov dst src) =
      [0x02 ||| (dst.index.setWidth 32 <<< 8) ||| (src.index.setWidth 32 <<< 12)] ∧
    ∃ t, exec (.mov dst src) s = .next t ∧
    (src.index.toNat = 15 → t = raise .illegalReg 0x02 s) ∧
    (src.index.toNat < 15 → 12 < dst.index.toNat → t = raise .illegalReg 0x02 s) ∧
    (src.index.toNat < 15 → dst.index.toNat < 12 →
      readReg dst t = readReg src s ∧ frame [dst] s t) ∧
    (src.index.toNat < 15 → dst.index.toNat = 12 →
      readReg .status t = some 0 ∧ readReg .faddr t = some 0 ∧ frame [.status, .faddr] s t)

/-- R124: `RD` completes for every register: the value it reads is appended to `OUT`, and nothing
else changes; index 15 raises `ILLEGAL_REG` and appends nothing. -/
def Obligations.RdAppendsToOut : Prop :=
  ∀ (src : Reg) (s : State), encode (.rd src) = [0x03 ||| (src.index.setWidth 32 <<< 12)] ∧
    ∃ t, exec (.rd src) s = .next t ∧
    (src.index.toNat < 15 → ∃ v, readReg src s = some v ∧ t.out = s.out ++ [v] ∧
      t = { s with out := t.out }) ∧
    (src.index.toNat = 15 → t = raise .illegalReg 0x03 s)

/-! ### Multiply-mix (40_mix.md) -/

/-- R86, R88: `MUM` writes the exact 128-bit product, low half to `LO` and high half to `HI`, in the
XOR-stronger build each xored with its operand. -/
def Obligations.MumWritesTheExactProduct : Prop :=
  encode .mum = [0x00000010] ∧
  ∀ s : State, ∃ t, exec .mum s = .next t ∧ frame [.lo, .hi] s t ∧
    (s.build.xorStronger = false →
      t.hi.toNat * 2 ^ 64 + t.lo.toNat = s.a.toNat * s.b.toNat) ∧
    (s.build.xorStronger = true →
      (t.hi ^^^ s.b).toNat * 2 ^ 64 + (t.lo ^^^ s.a).toNat = s.a.toNat * s.b.toNat)

/-- R87, R89: `MIX` writes the xor of the halves of the product, and in the XOR-stronger build of
the operands as well, which R87 derives from R86 and R90. -/
def Obligations.MixFoldsTheExactProduct : Prop :=
  encode .mix = [0x00000011] ∧
  ∀ s : State, ∃ pHi pLo : Word, pHi.toNat * 2 ^ 64 + pLo.toNat = s.a.toNat * s.b.toNat ∧
    exec .mix s = .next { s with
      lo := if s.build.xorStronger then s.a ^^^ s.b ^^^ pLo ^^^ pHi else pLo ^^^ pHi }

/-- R89: `wymix` is symmetric in both builds, and a zero operand gives 0 or, in the XOR-stronger
build, the other operand. -/
def Obligations.MixIsSymmetric : Prop :=
  ∀ (bld : Build) (x y : Word), wymix bld x y = wymix bld y x ∧
    wymix bld 0 x = if bld.xorStronger then x else 0

/-! ### Readers (41_readers.md) -/

/-- R91, R94: `RD64` completes on every readable buffer, and bits `8i+7 .. 8i` of `LO` are the byte at
`PTR + i`; on any other it raises what `CheckRead` finds. -/
def Obligations.Rd64LoadsEightBytes : Prop :=
  encode .rd64 = [0x00000020] ∧
  ∀ s : State,
    (Readable s.mem s.ptr 8 → ∃ t, exec .rd64 s = .next t ∧ frame [.lo] s t ∧
      ∀ k, k < 8 → memByte s.mem (s.ptr.toNat + k) = some (t.lo.extractLsb' (8 * k) 8)) ∧
    (∀ e, checkRead s.mem s.ptr 8 = some e → exec .rd64 s = .next (raise e 0x20 s))

/-- R92, R95: `RD32` completes on every readable buffer, bits `8i+7 .. 8i` of `LO` are the byte at
`PTR + i` and bits 63:32 are 0; on any other it raises what `CheckRead` finds. -/
def Obligations.Rd32LoadsFourBytes : Prop :=
  encode .rd32 = [0x00000021] ∧
  ∀ s : State,
    (Readable s.mem s.ptr 4 → ∃ t, exec .rd32 s = .next t ∧ frame [.lo] s t ∧
      (∀ k, k < 4 → memByte s.mem (s.ptr.toNat + k) = some (t.lo.extractLsb' (8 * k) 8)) ∧
      t.lo.extractLsb' 32 32 = 0) ∧
    (∀ e, checkRead s.mem s.ptr 4 = some e → exec .rd32 s = .next (raise e 0x21 s))

/-- R93, R96: `RDSM` completes on every readable buffer of 1, 2 or 3 bytes: the bytes at `PTR`,
`PTR + LEN/2` and `PTR + LEN − 1`, most significant first; on any other it raises what `CheckRead`
finds, and for any other `LEN` it raises `ILLEGAL_LEN` before it looks at memory. -/
def Obligations.RdsmLoadsThreeBytePositions : Prop :=
  encode .rdsm = [0x00000022] ∧
  ∀ s : State,
    (1 ≤ s.len.toNat → s.len.toNat ≤ 3 → Readable s.mem s.ptr s.len.toNat →
      ∃ t, exec .rdsm s = .next t ∧ frame [.lo] s t ∧
        memByte s.mem s.ptr.toNat = some (t.lo.extractLsb' 16 8) ∧
        memByte s.mem (s.ptr.toNat + s.len.toNat / 2) = some (t.lo.extractLsb' 8 8) ∧
        memByte s.mem (s.ptr.toNat + s.len.toNat - 1) = some (t.lo.extractLsb' 0 8) ∧
        t.lo.extractLsb' 24 40 = 0) ∧
    (1 ≤ s.len.toNat → s.len.toNat ≤ 3 → ∀ e, checkRead s.mem s.ptr s.len.toNat = some e →
      exec .rdsm s = .next (raise e 0x22 s)) ∧
    (s.len.toNat = 0 ∨ 3 < s.len.toNat → exec .rdsm s = .next (raise .illegalLen 0x22 s))

/-- R46: in every multi-byte read the byte at the lowest address is the least significant; "A
mixed-width view is therefore consistent", which R46 derives from R91 and R92. -/
def Obligations.WiderReadsContainNarrowerOnes : Prop :=
  ∀ (M : Nat → Byte) (p : Nat),
    (∀ k, k < 8 → (read64 M p).extractLsb' (8 * k) 8 = M (p + k)) ∧
    (∀ k, k < 4 → (read32 M p).extractLsb' (8 * k) 8 = M (p + k)) ∧
    read32 M p = ((read64 M p).setWidth 32).setWidth 64 ∧ read64 M p >>> 32 = read32 M (p + 4)

/-! ### HASH (42_hash.md) -/

/-- R103, R104: `HASH` completes on every readable buffer, and `LO` is the hash of its bytes,
read as a fold over counted blocks and chunks; it does not depend on `PTR` or on anything but the
bytes, `LEN`, `SEED`, the secret and the build (R105). Nothing but `LO` changes. -/
def Obligations.HashIsTheFoldOverItsBytes : Prop :=
  ∀ (s : State) (bytes : List Byte), bytes.length = s.len.toNat →
    s.ptr.toNat + s.len.toNat ≤ 2 ^ 64 →
    (∀ k, k < s.len.toNat → memByte s.mem (s.ptr.toNat + k) = bytes[k]?) →
    exec .hash s = .next { s with lo := hashBytes s.build bytes s.seed s.secret }

/-- R98, R104, 90_conflicts.md C5: the empty buffer. No memory is read, any `PTR` is accepted, and the
pair is `(0, 0)`. -/
def Obligations.HashOfNothingReadsNothing : Prop :=
  ∀ s : State, s.len = 0 → exec .hash s = .next { s with
    lo := hashFinish s.build s.secret 0 (hashSeed s.build s.secret s.seed) 0 0 }

/-- R97, R102: the seed conditioning and the finalisation of each form of the hash, in every build. The
finalisation is stated for every accumulator `sd`: the conditioned seed of a short input, and what the
loops leave of a long one. -/
def Obligations.HashFormsAreAsStated : Prop :=
  ∀ (bld : Build) (s : Secret) (n seed sd a b : Word),
    (bld.hashForm = .doc →
      hashSeed bld s seed = seed ^^^ wymix bld (seed ^^^ s.s0) s.s1 ∧
      hashFinish bld s n sd a b =
        wymix bld ((wymum bld (a ^^^ s.s1) (b ^^^ sd)).1 ^^^ s.s0 ^^^ n)
          ((wymum bld (a ^^^ s.s1) (b ^^^ sd)).2 ^^^ s.s1)) ∧
    (bld.hashForm = .alt →
      hashSeed bld s seed = seed ^^^ s.s0 ∧
      hashFinish bld s n sd a b = wymix bld (s.s1 ^^^ n) (wymix bld (a ^^^ s.s1) (b ^^^ sd)))

/-- R100, R101: after both loops of a long input the cursor and the remaining length still add up to
the end of the buffer, at most 16 bytes remain, and in a build with the bound `i > 48` at least one. -/
def Obligations.HashLoopsStopInTheLastSixteenBytes : Prop :=
  ∀ (bld : Build) (M : Nat → Byte) (s : Secret) (p n : Nat) (sd : Word), 16 < n →
    let x := longLoops bld M s p n sd
    x.q + x.i = p + n ∧ x.i ≤ 16 ∧ (bld.blockGe48 = false → 1 ≤ x.i)

/-- R105: "no byte outside is read": `wyhash` on two snapshots that agree on the buffer is the same. -/
def Obligations.WyhashReadsOnlyItsBuffer : Prop :=
  ∀ (bld : Build) (M M' : Nat → Byte) (p n : Nat) (seed : Word) (s : Secret),
    (∀ k, k < n → M (p + k) = M' (p + k)) → wyhash bld M p n seed s = wyhash bld M' p n seed s

/-! ### Secrets (43_secret.md) -/

/-- R19: `TABLE70` lists the bytes of popcount 4 in ascending order. -/
def Obligations.TableListsTheBalancedBytes : Prop :=
  table70.length = 70 ∧
  table70 = ((List.range 256).map (BitVec.ofNat 8)).filter fun v => popcountByte v = 4

/-- R106: `DEFSEC` loads the default secret. -/
def Obligations.DefsecLoadsTheDefaultSecret : Prop :=
  encode .defsec = [0x00000040] ∧ ∀ s : State, exec .defsec s = .next { s with
    sec0 := 0xa0761d6478bd642f, sec1 := 0xe7037ed1a0b428db
    sec2 := 0x8ebc6af09c88c6e3, sec3 := 0x589965cc75374cc3 }

/-- R109, R110: whenever the search for `SEED` ends (and the model's fuel is at least 2^63), `MKSEC`
completes with the secret the search ends with, in the four secret registers together; nothing else
changes. -/
def Obligations.MksecWritesTheSecretOfItsSearch : Prop :=
  ∀ (s : State) (x : Secret), MakesSecret s.build s.seed x → 2 ^ 63 ≤ s.mksecFuel →
    exec .mksec s = .next { s with sec0 := x.s0, sec1 := x.s1, sec2 := x.s2, sec3 := x.s3 }

/-- R111: under any fuel, what `MKSEC` writes is the secret the search ends with, and exhausted fuel
is a refusal, never a value. -/
def Obligations.MksecNeverWritesAnythingElse : Prop :=
  ∀ s : State,
    (∃ x, MakesSecret s.build s.seed x ∧
      exec .mksec s = .next { s with sec0 := x.s0, sec1 := x.s1, sec2 := x.s2, sec3 := x.s3 }) ∨
    exec .mksec s = .refused .mksecFuelExhausted

/-- What the reset fuel means (the model's choice, log 7): with 2^63 attempts, a refused `MKSEC` is
one whose search never ends, so the model refuses exactly where the hardware never finishes. -/
def Obligations.MksecIsRefusedOnlyIfItNeverEnds : Prop :=
  ∀ s : State, 2 ^ 63 ≤ s.mksecFuel →
    (exec .mksec s = .refused .mksecFuelExhausted ↔ ¬ ∃ x, MakesSecret s.build s.seed x)

/-- R29, R108: every byte of a derived secret has popcount 4, and the 32 bytes are pairwise distinct. -/
def Obligations.DerivedSecretsAreBalancedAndDistinct : Prop :=
  ∀ (bld : Build) (seed : Word) (x : Secret), MakesSecret bld seed x →
    (secretBytes x).length = 32 ∧ (secretBytes x).Nodup ∧ ∀ v ∈ secretBytes x, popcountByte v = 4

/-! ### RAND (44_rand.md) -/

/-- R112, R114: `RAND` adds the increment to `RNG` and returns the mix of the updated state. -/
def Obligations.RandStepsAndReturnsTheMix : Prop :=
  encode .rand = [0x00000050] ∧ ∀ s : State, ∃ t, exec .rand s = .next t ∧ frame [.rng, .lo] s t ∧
    t.rng = s.rng + 0x2d358dccaa6c78a5 ∧
    t.lo = wymix s.build t.rng (t.rng ^^^ 0x8bb84b93962eacc9)

/-- R113: the state sequence returns to a state after a multiple of 2^64 steps, and not before. -/
def Obligations.RngPeriodIsExactlyTwoToTheSixtyFour : Prop :=
  ∀ (t : Word) (k : Nat), wyrandNext^[k] t = t ↔ 2 ^ 64 ∣ k

/-! ### U01 and GAU (45_distrib.md) -/

/-- R115, R117: `U01` writes the pattern of `(A >> 12) · 2^−52`, exactly; it lies in `[0, 1)` and its
sign bit is 0. -/
def Obligations.UnitDoubleIsExact : Prop :=
  encode .u01 = [0x00000060] ∧ ∀ s : State, ∃ t, exec .u01 s = .next t ∧ frame [.lo] s t ∧
    f64 t.lo = some (((s.a >>> 12).toNat : ℚ) / 2 ^ 52) ∧
    (0 : ℚ) ≤ ((s.a >>> 12).toNat : ℚ) / 2 ^ 52 ∧ ((s.a >>> 12).toNat : ℚ) / 2 ^ 52 < 1 ∧
    t.lo.getLsbD 63 = false

/-- R116, R118: `GAU` writes the binary64 value nearest to `(popcount(A) − 32)` times the
scale of the build, ties to even, among all binary64 values; zero is `+0.0`. -/
def Obligations.GaussianDoubleIsCorrectlyRounded : Prop :=
  encode .gau = [0x00000061] ∧ ∀ s : State, ∃ t c, exec .gau s = .next t ∧ frame [.lo] s t ∧
    f64 (match s.build.gauScale with
      | .formula => 0x3FC6A09E667F3BCD
      | .literal => 0x3FED105EB806161C) = some c ∧
    RoundsTo (((popcount s.a : ℚ) - 32) * c) t.lo ∧
    (popcount s.a = 32 → t.lo = 0)

/-- R116: the result depends only on the popcount, and popcounts `32 − k` and `32 + k` give patterns
that differ in the sign bit only. -/
def Obligations.GaussianDoubleIsOddInThePopcount : Prop :=
  ∀ (bld : Build) (x y : Word),
    (popcount x = popcount y → wy2gau bld x = wy2gau bld y) ∧
    (popcount x + popcount y = 64 → popcount x < 32 →
      wy2gau bld x = wy2gau bld y ||| 0x8000000000000000 ∧ (wy2gau bld y).getLsbD 63 = false)

/-! ### The host's moves (60_exceptions.md R139, 70_reset_and_hazards.md R158) -/

/-- R158: presenting words, removing from `OUT` and writing or unmapping a byte touch what the host hands
over and nothing else; in particular they leave every register as it is. The moves are the model's form
of the host's interactions (log 22). -/
def Obligations.HostMovesLeaveTheRegisters : Prop :=
  ∀ s : State,
    (∀ (m : EnvMove) (r : Reg), (∀ draw, m ≠ .reset draw) →
      readReg r (envApply m s) = readReg r s) ∧
    (∀ ws, envApply (.present ws) s = { s with port := s.port ++ ws }) ∧
    (∃ vs, envApply .takeOut s = { s with out := vs }) ∧
    (∀ a v, ∃ m, envApply (.writeByte a v) s = { s with mem := m }) ∧
    (∀ a, ∃ m, envApply (.unmapByte a) s = { s with mem := m })
end

