-- ==== Sys2Proof/Laws/State.lean ====
section
/-! SUPPORT. What the named updates of the state leave in each field: one lemma per field and update. -/

namespace Sys2Proof.Machine

/-! ### `clearStatus` -/

@[simp] theorem clearStatus_a (s : State) : (clearStatus s).a = s.a := rfl
@[simp] theorem clearStatus_b (s : State) : (clearStatus s).b = s.b := rfl
@[simp] theorem clearStatus_lo (s : State) : (clearStatus s).lo = s.lo := rfl
@[simp] theorem clearStatus_hi (s : State) : (clearStatus s).hi = s.hi := rfl
@[simp] theorem clearStatus_seed (s : State) : (clearStatus s).seed = s.seed := rfl
@[simp] theorem clearStatus_ptr (s : State) : (clearStatus s).ptr = s.ptr := rfl
@[simp] theorem clearStatus_len (s : State) : (clearStatus s).len = s.len := rfl
@[simp] theorem clearStatus_rng (s : State) : (clearStatus s).rng = s.rng := rfl
@[simp] theorem clearStatus_sec0 (s : State) : (clearStatus s).sec0 = s.sec0 := rfl
@[simp] theorem clearStatus_sec1 (s : State) : (clearStatus s).sec1 = s.sec1 := rfl
@[simp] theorem clearStatus_sec2 (s : State) : (clearStatus s).sec2 = s.sec2 := rfl
@[simp] theorem clearStatus_sec3 (s : State) : (clearStatus s).sec3 = s.sec3 := rfl
@[simp] theorem clearStatus_status (s : State) : (clearStatus s).status = 0 := rfl
@[simp] theorem clearStatus_faddr (s : State) : (clearStatus s).faddr = 0 := rfl
@[simp] theorem clearStatus_build (s : State) : (clearStatus s).build = s.build := rfl
@[simp] theorem clearStatus_out (s : State) : (clearStatus s).out = s.out := rfl
@[simp] theorem clearStatus_pending (s : State) : (clearStatus s).pending = s.pending := rfl
@[simp] theorem clearStatus_port (s : State) : (clearStatus s).port = s.port := rfl
@[simp] theorem clearStatus_mem (s : State) : (clearStatus s).mem = s.mem := rfl
@[simp] theorem clearStatus_mksecFuel (s : State) : (clearStatus s).mksecFuel = s.mksecFuel := rfl

/-! ### `writeSecret` -/

@[simp] theorem writeSecret_a (x : Secret) (s : State) : (writeSecret x s).a = s.a := rfl
@[simp] theorem writeSecret_b (x : Secret) (s : State) : (writeSecret x s).b = s.b := rfl
@[simp] theorem writeSecret_lo (x : Secret) (s : State) : (writeSecret x s).lo = s.lo := rfl
@[simp] theorem writeSecret_hi (x : Secret) (s : State) : (writeSecret x s).hi = s.hi := rfl
@[simp] theorem writeSecret_seed (x : Secret) (s : State) : (writeSecret x s).seed = s.seed := rfl
@[simp] theorem writeSecret_ptr (x : Secret) (s : State) : (writeSecret x s).ptr = s.ptr := rfl
@[simp] theorem writeSecret_len (x : Secret) (s : State) : (writeSecret x s).len = s.len := rfl
@[simp] theorem writeSecret_rng (x : Secret) (s : State) : (writeSecret x s).rng = s.rng := rfl
@[simp] theorem writeSecret_sec0 (x : Secret) (s : State) : (writeSecret x s).sec0 = x.s0 := rfl
@[simp] theorem writeSecret_sec1 (x : Secret) (s : State) : (writeSecret x s).sec1 = x.s1 := rfl
@[simp] theorem writeSecret_sec2 (x : Secret) (s : State) : (writeSecret x s).sec2 = x.s2 := rfl
@[simp] theorem writeSecret_sec3 (x : Secret) (s : State) : (writeSecret x s).sec3 = x.s3 := rfl
@[simp] theorem writeSecret_status (x : Secret) (s : State) : (writeSecret x s).status = s.status := rfl
@[simp] theorem writeSecret_faddr (x : Secret) (s : State) : (writeSecret x s).faddr = s.faddr := rfl
@[simp] theorem writeSecret_build (x : Secret) (s : State) : (writeSecret x s).build = s.build := rfl
@[simp] theorem writeSecret_out (x : Secret) (s : State) : (writeSecret x s).out = s.out := rfl
@[simp] theorem writeSecret_pending (x : Secret) (s : State) : (writeSecret x s).pending = s.pending := rfl
@[simp] theorem writeSecret_port (x : Secret) (s : State) : (writeSecret x s).port = s.port := rfl
@[simp] theorem writeSecret_mem (x : Secret) (s : State) : (writeSecret x s).mem = s.mem := rfl
@[simp] theorem writeSecret_mksecFuel (x : Secret) (s : State) : (writeSecret x s).mksecFuel = s.mksecFuel := rfl

@[simp] theorem writeSecret_secret (x : Secret) (s : State) : (writeSecret x s).secret = x := rfl

/-! ### `raise`: everything but `STATUS` and `FADDR` stays (60_exceptions.md R132) -/

@[simp] theorem raise_a (e : CmdError) (opc : Byte) (s : State) :
    (raise e opc s).a = s.a := by
  unfold raise; split <;> rfl

@[simp] theorem raise_b (e : CmdError) (opc : Byte) (s : State) :
    (raise e opc s).b = s.b := by
  unfold raise; split <;> rfl

@[simp] theorem raise_lo (e : CmdError) (opc : Byte) (s : State) :
    (raise e opc s).lo = s.lo := by
  unfold raise; split <;> rfl

@[simp] theorem raise_hi (e : CmdError) (opc : Byte) (s : State) :
    (raise e opc s).hi = s.hi := by
  unfold raise; split <;> rfl

@[simp] theorem raise_seed (e : CmdError) (opc : Byte) (s : State) :
    (raise e opc s).seed = s.seed := by
  unfold raise; split <;> rfl

@[simp] theorem raise_ptr (e : CmdError) (opc : Byte) (s : State) :
    (raise e opc s).ptr = s.ptr := by
  unfold raise; split <;> rfl

@[simp] theorem raise_len (e : CmdError) (opc : Byte) (s : State) :
    (raise e opc s).len = s.len := by
  unfold raise; split <;> rfl

@[simp] theorem raise_rng (e : CmdError) (opc : Byte) (s : State) :
    (raise e opc s).rng = s.rng := by
  unfold raise; split <;> rfl

@[simp] theorem raise_sec0 (e : CmdError) (opc : Byte) (s : State) :
    (raise e opc s).sec0 = s.sec0 := by
  unfold raise; split <;> rfl

@[simp] theorem raise_sec1 (e : CmdError) (opc : Byte) (s : State) :
    (raise e opc s).sec1 = s.sec1 := by
  unfold raise; split <;> rfl

@[simp] theorem raise_sec2 (e : CmdError) (opc : Byte) (s : State) :
    (raise e opc s).sec2 = s.sec2 := by
  unfold raise; split <;> rfl

@[simp] theorem raise_sec3 (e : CmdError) (opc : Byte) (s : State) :
    (raise e opc s).sec3 = s.sec3 := by
  unfold raise; split <;> rfl

@[simp] theorem raise_build (e : CmdError) (opc : Byte) (s : State) :
    (raise e opc s).build = s.build := by
  unfold raise; split <;> rfl

@[simp] theorem raise_out (e : CmdError) (opc : Byte) (s : State) :
    (raise e opc s).out = s.out := by
  unfold raise; split <;> rfl

@[simp] theorem raise_pending (e : CmdError) (opc : Byte) (s : State) :
    (raise e opc s).pending = s.pending := by
  unfold raise; split <;> rfl

@[simp] theorem raise_port (e : CmdError) (opc : Byte) (s : State) :
    (raise e opc s).port = s.port := by
  unfold raise; split <;> rfl

@[simp] theorem raise_mem (e : CmdError) (opc : Byte) (s : State) :
    (raise e opc s).mem = s.mem := by
  unfold raise; split <;> rfl

@[simp] theorem raise_mksecFuel (e : CmdError) (opc : Byte) (s : State) :
    (raise e opc s).mksecFuel = s.mksecFuel := by
  unfold raise; split <;> rfl

/-- The first error since `STATUS` was written (R132). -/
theorem raise_first {s : State} (h : statusErr s.status = false) (e : CmdError) (opc : Byte) :
    raise e opc s = { s with
      status := recordFirst s.status (errorCode e) opc
      faddr := (errorAddress e).getD s.faddr } := by
  simp [raise, h]

/-- A later error (R132). -/
theorem raise_later {s : State} (h : statusErr s.status = true) (e : CmdError) (opc : Byte) :
    raise e opc s = { s with status := recordLater s.status } := by
  simp [raise, h]

/-- The updates other operations make commute with raising, as `raise` reads and writes `STATUS` and
`FADDR` only. -/
theorem raise_with_mem (e : CmdError) (opc : Byte) (s : State) (m : Memory) :
    raise e opc { s with mem := m } = { raise e opc s with mem := m } := by
  unfold raise; split <;> rfl

/-! ### `State.resetWith` (10_state.md R40) -/

section

variable (bld : Build) (draw : Word) (m : Memory) (ws : List CmdWord) (fuel : Nat)

@[simp] theorem resetWith_a :
    (State.resetWith bld draw m ws fuel).a = 0 := rfl

@[simp] theorem resetWith_b :
    (State.resetWith bld draw m ws fuel).b = 0 := rfl

@[simp] theorem resetWith_lo :
    (State.resetWith bld draw m ws fuel).lo = 0 := rfl

@[simp] theorem resetWith_hi :
    (State.resetWith bld draw m ws fuel).hi = 0 := rfl

@[simp] theorem resetWith_seed :
    (State.resetWith bld draw m ws fuel).seed = 0 := rfl

@[simp] theorem resetWith_ptr :
    (State.resetWith bld draw m ws fuel).ptr = 0 := rfl

@[simp] theorem resetWith_len :
    (State.resetWith bld draw m ws fuel).len = 0 := rfl

@[simp] theorem resetWith_rng :
    (State.resetWith bld draw m ws fuel).rng = draw := rfl

@[simp] theorem resetWith_sec0 :
    (State.resetWith bld draw m ws fuel).sec0 = 0xa0761d6478bd642f := rfl

@[simp] theorem resetWith_sec1 :
    (State.resetWith bld draw m ws fuel).sec1 = 0xe7037ed1a0b428db := rfl

@[simp] theorem resetWith_sec2 :
    (State.resetWith bld draw m ws fuel).sec2 = 0x8ebc6af09c88c6e3 := rfl

@[simp] theorem resetWith_sec3 :
    (State.resetWith bld draw m ws fuel).sec3 = 0x589965cc75374cc3 := rfl

@[simp] theorem resetWith_status :
    (State.resetWith bld draw m ws fuel).status = 0 := rfl

@[simp] theorem resetWith_faddr :
    (State.resetWith bld draw m ws fuel).faddr = 0 := rfl

@[simp] theorem resetWith_build :
    (State.resetWith bld draw m ws fuel).build = bld := rfl

@[simp] theorem resetWith_out :
    (State.resetWith bld draw m ws fuel).out = [] := rfl

@[simp] theorem resetWith_pending :
    (State.resetWith bld draw m ws fuel).pending = .idle := rfl

@[simp] theorem resetWith_port :
    (State.resetWith bld draw m ws fuel).port = ws := rfl

@[simp] theorem resetWith_mem :
    (State.resetWith bld draw m ws fuel).mem = m := rfl

@[simp] theorem resetWith_mksecFuel :
    (State.resetWith bld draw m ws fuel).mksecFuel = fuel := rfl

end

end Sys2Proof.Machine
end

