-- ==== Sys2Proof/Laws/Operands.lean ====
section
/-! SUPPORT. What reading and writing a register operand can do (Machine/Operands.lean), and frames. -/

namespace Sys2Proof.Machine

/-- A source is refused exactly for index 15 (30_encoding.md R74). -/
theorem readReg_eq_none_iff (r : Reg) (s : State) : readReg r s = none ↔ r.mayRead = false := by
  cases r <;> simp [readReg, Reg.mayRead]

/-- A destination is refused exactly for indices 13, 14 and 15 (R74). -/
theorem writeReg_eq_none_iff (r : Reg) (v : Word) (s : State) :
    writeReg r v s = none ↔ r.mayWrite = false := by
  cases r <;> simp [writeReg, Reg.mayWrite]

/-- All a register write can do: it names a general register, which then holds the value, or it names
`STATUS`, which clears it (46_transfer.md R121, R122). -/
theorem writeReg_cases {r : Reg} {v : Word} {s t : State} (h : writeReg r v s = some t) :
    (r.index.toNat < 12 ∧ readReg r t = some v ∧ frame [r] s t) ∨
    (r = .status ∧ t = clearStatus s) := by
  cases r <;> simp only [writeReg, Option.some.injEq, reduceCtorEq] at h <;> subst h
  case status => exact .inr ⟨rfl, rfl⟩
  all_goals
    refine .inl ⟨by decide, rfl, fun r hr => ?_, by simp [sameAround]⟩
    cases r <;> simp_all [readReg]

theorem frame_refl (l : List Reg) (s : State) : frame l s s :=
  ⟨fun _ _ => rfl, by simp [sameAround]⟩

/-- A larger list of written registers is a weaker frame. -/
theorem frame_mono {l l' : List Reg} {s t : State} (hl : l ⊆ l') (h : frame l s t) : frame l' s t :=
  ⟨fun r hr => h.1 r fun hr' => hr (hl hr'), h.2⟩

/-- Raising an error changes `STATUS` and `FADDR` only (60_exceptions.md R132). -/
theorem raise_frame (e : CmdError) (opc : Byte) (s : State) :
    frame [.status, .faddr] s (raise e opc s) := by
  refine ⟨fun r hr => ?_, by simp [sameAround]⟩
  cases r <;> simp_all [readReg]

theorem clearStatus_frame (s : State) : frame [.status, .faddr] s (clearStatus s) := by
  refine ⟨fun r hr => ?_, by simp [sameAround]⟩
  cases r <;> simp_all [readReg]

theorem writeSecret_frame (x : Secret) (s : State) :
    frame [.sec0, .sec1, .sec2, .sec3] s (writeSecret x s) := by
  refine ⟨fun r hr => ?_, by simp [sameAround]⟩
  cases r <;> simp_all [readReg]

/-- Writing `LO` only. -/
theorem lo_frame (v : Word) (s : State) : frame [.lo] s { s with lo := v } := by
  refine ⟨fun r hr => ?_, by simp [sameAround]⟩
  cases r <;> simp_all [readReg]

/-! ### What does not depend on `OUT` (10_state.md R38) -/

@[simp] theorem readReg_with_out (r : Reg) (s : State) (o : List Word) :
    readReg r { s with out := o } = readReg r s := by
  cases r <;> rfl

theorem raise_with_out (e : CmdError) (opc : Byte) (s : State) (o : List Word) :
    raise e opc { s with out := o } = { raise e opc s with out := o } := by
  unfold raise
  simp only
  split <;> rfl

end Sys2Proof.Machine
end

