-- ==== Sys2Proof/Laws/Memory.lean ====
section
/-! SUPPORT. Host memory: reads after writes, the canonical form, and the read check. -/

namespace Sys2Proof.Machine

/-! ### The canonical form (20_memory.md R49) -/

theorem memByte_eq_none_of_lt {m : Memory} {a : Nat} (h : ∀ c ∈ m, a < c.1) : memByte m a = none := by
  induction m with
  | nil => rfl
  | cons c m ih =>
    have hc := h c (by simp)
    simp only [memByte]
    rw [if_neg (by omega)]
    exact ih fun d hd => h d (by simp [hd])

/-- Read after write, at the address written and at every other. -/
theorem memByte_memWrite (m : Memory) (a : Nat) (v : Byte) (x : Nat) :
    memByte (memWrite m a v) x = if x = a then some v else memByte m x := by
  induction m with
  | nil => simp [memWrite, memByte, eq_comm]
  | cons c m ih =>
    obtain ⟨a', v'⟩ := c
    simp only [memWrite]
    split
    · simp [memByte, eq_comm]
    · split
      · subst_vars
        simp only [memByte]
        by_cases hx : x = a' <;> simp [hx, eq_comm]
      · simp only [memByte, ih]; split <;> split <;> simp_all

/-- Read after unmapping. -/
theorem memByte_memUnmap (m : Memory) (a x : Nat) :
    memByte (memUnmap m a) x = if x = a then none else memByte m x := by
  induction m with
  | nil => simp [memUnmap, memByte]
  | cons c m ih =>
    obtain ⟨a', v'⟩ := c
    rw [memUnmap, List.filter_cons]
    split <;> rename_i ha <;> simp at ha
    · rw [memByte]
      split
      · subst_vars; simp [memByte, ha]
      · rw [← memUnmap, ih]; simp [memByte, *]
    · subst ha
      rw [← memUnmap, ih]
      simp only [memByte]
      split <;> simp_all [eq_comm]

theorem memWrite_mem {m : Memory} {a : Nat} {v : Byte} {c : Host.Cell} (h : c ∈ memWrite m a v) :
    c = (a, v) ∨ c ∈ m := by
  induction m with
  | nil => simpa [memWrite] using h
  | cons d m ih =>
    obtain ⟨a', v'⟩ := d
    simp only [memWrite] at h
    split at h
    · simpa using h
    · split at h
      · simp at h ⊢; tauto
      · simp at h ⊢; tauto

/-- A write keeps the canonical form. -/
theorem memWrite_wf {m : Memory} (h : Memory.wf m) {a : Nat} (ha : a < addressSpace) (v : Byte) :
    Memory.wf (memWrite m a v) := by
  refine ⟨?_, fun c hc => ?_⟩
  · have h1 := h.1
    clear h
    induction m with
    | nil => simp [memWrite]
    | cons d m ih =>
      obtain ⟨a', v'⟩ := d
      rw [List.map_cons, List.pairwise_cons] at h1
      simp only [memWrite]
      split
      · rename_i hlt
        simp only [List.map_cons, List.pairwise_cons, List.mem_cons, List.mem_map]
        refine ⟨?_, ?_, h1.2⟩
        · rintro x (rfl | ⟨c, hc, rfl⟩)
          · exact hlt
          · exact lt_trans hlt (h1.1 _ (List.mem_map_of_mem hc))
        · rintro x ⟨c, hc, rfl⟩
          exact h1.1 _ (List.mem_map_of_mem hc)
      · split
        · subst_vars
          exact List.pairwise_cons.2 h1
        · rw [List.map_cons, List.pairwise_cons]
          refine ⟨fun x hx => ?_, ih h1.2⟩
          obtain ⟨c, hc, rfl⟩ := List.mem_map.1 hx
          rcases memWrite_mem hc with rfl | hc
          · simp only; omega
          · exact h1.1 _ (List.mem_map_of_mem hc)
  · rcases memWrite_mem hc with rfl | hc
    · exact ha
    · exact h.2 c hc

/-- Unmapping keeps the canonical form. -/
theorem memUnmap_wf {m : Memory} (h : Memory.wf m) (a : Nat) : Memory.wf (memUnmap m a) :=
  ⟨h.1.sublist (List.Sublist.map _ List.filter_sublist),
    fun c hc => h.2 c (List.mem_filter.1 hc).1⟩

/-! ### The admission scan (20_memory.md R52, R63) -/

/-- The scan finds nothing exactly when every address is admitted. -/
theorem firstRefused_eq_none_iff (m : Memory) (a n : Nat) :
    firstRefused m a n = none ↔ ∀ k, k < n → memAdmits m (a + k) = true := by
  induction n generalizing a with
  | zero => simp [firstRefused]
  | succ n ih =>
    rw [firstRefused]
    split
    · rename_i h0
      rw [ih]
      constructor
      · intro h k hk
        cases k with
        | zero => simpa using h0
        | succ k => have := h k (by omega); rwa [show a + (k + 1) = a + 1 + k by omega]
      · intro h k hk
        have := h (k + 1) (by omega)
        rwa [show a + 1 + k = a + (k + 1) by omega]
    · rename_i h0
      simp only [reduceCtorEq, false_iff, not_forall]
      exact ⟨0, by omega, by simpa using h0⟩

/-- The scan finds the lowest address that is not admitted. -/
theorem firstRefused_eq_some_iff (m : Memory) (a n x : Nat) :
    firstRefused m a n = some x ↔
      a ≤ x ∧ x < a + n ∧ memAdmits m x = false ∧ ∀ y, a ≤ y → y < x → memAdmits m y = true := by
  induction n generalizing a with
  | zero => simp [firstRefused]; omega
  | succ n ih =>
    rw [firstRefused]
    split
    · rename_i h0
      rw [ih]
      constructor
      · rintro ⟨h1, h2, h3, h4⟩
        refine ⟨by omega, by omega, h3, fun y hy1 hy2 => ?_⟩
        rcases Nat.eq_or_lt_of_le hy1 with rfl | hy
        · exact h0
        · exact h4 y hy hy2
      · rintro ⟨h1, h2, h3, h4⟩
        rcases Nat.eq_or_lt_of_le h1 with rfl | h
        · simp [h0] at h3
        · exact ⟨h, by omega, h3, fun y hy1 hy2 => h4 y (by omega) hy2⟩
    · rename_i h0
      simp only [Option.some.injEq]
      constructor
      · rintro rfl
        exact ⟨le_refl _, by omega, by simpa using h0, fun y _ _ => by omega⟩
      · rintro ⟨h1, h2, h3, h4⟩
        rcases Nat.eq_or_lt_of_le h1 with rfl | h
        · rfl
        · exact absurd (h4 a (le_refl _) h) h0

/-- The scan depends on the addresses it scans only. -/
theorem firstRefused_congr {m m' : Memory} {a n : Nat}
    (h : ∀ k, k < n → memByte m' (a + k) = memByte m (a + k)) :
    firstRefused m' a n = firstRefused m a n := by
  induction n generalizing a with
  | zero => rfl
  | succ n ih =>
    have h0 : memAdmits m' a = memAdmits m a := by
      simpa [memAdmits] using congrArg Option.isSome (h 0 (by omega))
    rw [firstRefused, firstRefused, h0, ih]
    intro k hk
    have := h (k + 1) (by omega)
    rwa [show a + 1 + k = a + (k + 1) by omega]

/-- `CheckRead` finds a `RANGE` or a `BUS` error, nothing else (R63). -/
theorem checkRead_cases {m : Memory} {p : Word} {n : Nat} {e : CmdError}
    (h : checkRead m p n = some e) : e = .range p ∨ ∃ a, e = .bus a := by
  unfold checkRead at h
  split at h
  · exact .inl (Option.some.inj h).symm
  · obtain ⟨a, -, rfl⟩ := Option.map_eq_some_iff.1 h
    exact .inr ⟨_, rfl⟩

/-! ### `loadCommand` -/

/-- All a memory command can do: it raises what `CheckRead` finds, or it writes `LO`. -/
theorem loadCommand_cases (opc : Byte) (n : Nat) (f : (Nat → Byte) → Word) (s : State) :
    (∃ e, checkRead s.mem s.ptr n = some e ∧ loadCommand opc n f s = raise e opc s) ∨
    (checkRead s.mem s.ptr n = none ∧
      loadCommand opc n f s = { s with lo := f (snapshot s.mem) }) := by
  unfold loadCommand
  split
  · rename_i e h; exact .inl ⟨e, h, rfl⟩
  · rename_i h; exact .inr ⟨h, rfl⟩

/-- At an admitted address the snapshot is the byte there (20_memory.md R54). -/
theorem snapshot_eq {m : Memory} {a : Nat} {v : Byte} (h : memByte m a = some v) :
    snapshot m a = v := by
  simp [snapshot, h]

theorem memByte_of_admits {m : Memory} {a : Nat} (h : memAdmits m a = true) :
    memByte m a = some (snapshot m a) := by
  obtain ⟨v, hv⟩ := Option.isSome_iff_exists.1 h
  rw [snapshot_eq hv, hv]

theorem loadCommand_with_out (opc : Byte) (n : Nat) (f : (Nat → Byte) → Word) (s : State)
    (o : List Word) :
    loadCommand opc n f { s with out := o } = { loadCommand opc n f s with out := o } := by
  unfold loadCommand
  simp only
  split
  · exact raise_with_out ..
  · rfl

/-- What a memory command leaves in `STATUS` and `FADDR` depends on these two, on `PTR` and on memory,
not on what it would load (60_exceptions.md R130). -/
theorem loadCommand_errors_congr {opc : Byte} {n : Nat} {f f' : (Nat → Byte) → Word} {s s' : State}
    (hp : s'.ptr = s.ptr) (hm : s'.mem = s.mem) (hs : s'.status = s.status) (hf : s'.faddr = s.faddr) :
    (loadCommand opc n f' s').status = (loadCommand opc n f s).status ∧
      (loadCommand opc n f' s').faddr = (loadCommand opc n f s).faddr := by
  unfold loadCommand
  rw [hp, hm]
  split
  · unfold raise
    rw [hs]
    split <;> simp [hf]
  · exact ⟨hs, hf⟩

end Sys2Proof.Machine
end

