-- ==== Sys2Proof/Laws/Bytes.lean ====
section
/-! SUPPORT. Little-endian composition of bytes (00_scope.md R14) and the fields of `STATUS`. -/

namespace Sys2Proof.Machine

/-- Byte `j` of a composition is the `j`-th byte of the list; beyond the list it is 0. -/
theorem leWord_byte (vs : List Byte) (j : Nat) (hj : j < 8) :
    (leWord vs).extractLsb' (8 * j) 8 = vs.getD j 0 := by
  induction vs generalizing j with
  | nil => simp [leWord]
  | cons v vs ih =>
    cases j with
    | zero =>
      ext i hi
      simp [leWord, BitVec.getLsbD_or, hi]
      omega
    | succ j =>
      have := ih j (by omega)
      rw [List.getD_cons_succ, ← this]
      ext i hi
      simp only [leWord, BitVec.getElem_extractLsb', BitVec.getLsbD_or, BitVec.getLsbD_setWidth,
        BitVec.getLsbD_shiftLeft]
      have h1 : v.getLsbD (8 * (j + 1) + i) = false := BitVec.getLsbD_of_ge _ _ (by omega)
      have h2 : 8 * (j + 1) + i < 64 := by omega
      have h3 : ¬ 8 * (j + 1) + i < 8 := by omega
      have h4 : 8 * (j + 1) + i - 8 = 8 * j + i := by omega
      simp [h1, h2, h3, h4]

/-- Two words with the same eight bytes are equal. -/
theorem word_ext_bytes {x y : Word}
    (h : ∀ j, j < 8 → x.extractLsb' (8 * j) 8 = y.extractLsb' (8 * j) 8) : x = y := by
  ext i hi
  have := congrArg (fun v : Byte => v.getLsbD (i % 8)) (h (i / 8) (by omega))
  simp only [BitVec.getLsbD_extractLsb'] at this
  have h1 : i % 8 < 8 := by omega
  have h2 : 8 * (i / 8) + i % 8 = i := by omega
  simpa [h1, h2, BitVec.getLsbD_eq_getElem hi] using this

/-- The bytes of `MemRead` on a snapshot. -/
theorem memRead_byte (M : Nat → Byte) (p n j : Nat) (hj : j < 8) :
    (memRead M p n).extractLsb' (8 * j) 8 = if j < n then M (p + j) else 0 := by
  rw [memRead, leWord_byte _ _ hj]
  split <;> simp_all [List.getD_eq_getElem?_getD]

/-- `MemRead` reads only the bytes it names. -/
theorem memRead_congr {M M' : Nat → Byte} {p n : Nat} (h : ∀ k, k < n → M (p + k) = M' (p + k)) :
    memRead M p n = memRead M' p n := by
  have : (List.range n).map (fun i => M (p + i)) = (List.range n).map (fun i => M' (p + i)) :=
    List.map_congr_left fun i hi => h i (List.mem_range.1 hi)
  rw [memRead, memRead, this]

/-! ### `STATUS` after an error (10_state.md R32, 60_exceptions.md R132) -/

@[simp] theorem statusErr_recordFirst (v : Word) (c : BitVec 4) (o : Byte) :
    statusErr (recordFirst v c o) = true := by
  simp [statusErr, recordFirst]

@[simp] theorem statusEcode_recordFirst (v : Word) (c : BitVec 4) (o : Byte) :
    statusEcode (recordFirst v c o) = c := by
  ext i hi
  have : i = 0 ∨ i = 1 ∨ i = 2 ∨ i = 3 := by omega
  rcases this with rfl | rfl | rfl | rfl <;>
    simp [statusEcode, recordFirst, firstErrorMask]

@[simp] theorem statusEopc_recordFirst (v : Word) (c : BitVec 4) (o : Byte) :
    statusEopc (recordFirst v c o) = o := by
  ext i hi
  have : i = 0 ∨ i = 1 ∨ i = 2 ∨ i = 3 ∨ i = 4 ∨ i = 5 ∨ i = 6 ∨ i = 7 := by omega
  rcases this with rfl | rfl | rfl | rfl | rfl | rfl | rfl | rfl <;>
    simp [statusEopc, recordFirst, firstErrorMask]

@[simp] theorem statusErr_recordLater (v : Word) : statusErr (recordLater v) = statusErr v := by
  simp [statusErr, recordLater]

@[simp] theorem statusMulti_recordLater (v : Word) : statusMulti (recordLater v) = true := by
  simp [statusMulti, recordLater]

@[simp] theorem statusEcode_recordLater (v : Word) : statusEcode (recordLater v) = statusEcode v := by
  ext i hi
  have : i = 0 ∨ i = 1 ∨ i = 2 ∨ i = 3 := by omega
  rcases this with rfl | rfl | rfl | rfl <;> simp [statusEcode, recordLater]

@[simp] theorem statusEopc_recordLater (v : Word) : statusEopc (recordLater v) = statusEopc v := by
  ext i hi
  have : i = 0 ∨ i = 1 ∨ i = 2 ∨ i = 3 ∨ i = 4 ∨ i = 5 ∨ i = 6 ∨ i = 7 := by omega
  rcases this with rfl | rfl | rfl | rfl | rfl | rfl | rfl | rfl <;>
    simp [statusEopc, recordLater]

end Sys2Proof.Machine
end

