-- ==== Sys2Proof/Laws/Encoding.lean ====
section
/-! SUPPORT. The fields of a command word, the rows of the opcode map, and the immediate. -/

namespace Sys2Proof

/-- Two words with the same four fields are equal (30_encoding.md R67). -/
theorem cmdWord_ext {w w' : CmdWord} (h1 : fieldRsv w = fieldRsv w') (h2 : fieldRs w = fieldRs w')
    (h3 : fieldRd w = fieldRd w') (h4 : fieldOpc w = fieldOpc w') : w = w' := by
  have bit {n start : Nat} (h : w.extractLsb' start n = w'.extractLsb' start n) (i : Nat)
      (h1 : start ≤ i) (h2 : i < start + n) : w.getLsbD i = w'.getLsbD i := by
    have := congrArg (fun v => v.getLsbD (i - start)) h
    simpa [BitVec.getLsbD_extractLsb', show i - start < n by omega,
      show start + (i - start) = i by omega] using this
  apply BitVec.eq_of_getLsbD_eq
  intro i hi
  by_cases hi1 : i < 8
  · exact bit h4 i (by omega) (by omega)
  by_cases hi2 : i < 12
  · exact bit h3 i (by omega) (by omega)
  by_cases hi3 : i < 16
  · exact bit h2 i (by omega) (by omega)
  · exact bit h1 i (by omega) (by omega)

@[simp] theorem fieldOpc_and (w v : CmdWord) : fieldOpc (w &&& v) = fieldOpc w &&& fieldOpc v := by
  simp [fieldOpc, BitVec.extractLsb'_and]

@[simp] theorem fieldRd_and (w v : CmdWord) : fieldRd (w &&& v) = fieldRd w &&& fieldRd v := by
  simp [fieldRd, BitVec.extractLsb'_and]

@[simp] theorem fieldRs_and (w v : CmdWord) : fieldRs (w &&& v) = fieldRs w &&& fieldRs v := by
  simp [fieldRs, BitVec.extractLsb'_and]

@[simp] theorem fieldRsv_and (w v : CmdWord) : fieldRsv (w &&& v) = fieldRsv w &&& fieldRsv v := by
  simp [fieldRsv, BitVec.extractLsb'_and]

/-- A row selects a word when each field, masked, is the row's (R72). -/
theorem OpcodeRow.selects_iff (row : OpcodeRow) (w : CmdWord) :
    row.selects w = true ↔
      fieldOpc w &&& fieldOpc row.mask = fieldOpc row.pattern ∧
      fieldRd w &&& fieldRd row.mask = fieldRd row.pattern ∧
      fieldRs w &&& fieldRs row.mask = fieldRs row.pattern ∧
      fieldRsv w &&& fieldRsv row.mask = fieldRsv row.pattern := by
  rw [OpcodeRow.selects, beq_iff_eq]
  constructor
  · intro h; rw [← h]; simp
  · rintro ⟨h1, h2, h3, h4⟩
    exact cmdWord_ext (by simpa using h4) (by simpa using h3) (by simpa using h2) (by simpa using h1)

/-- A row of format N selects its own word only (R69). -/
theorem OpcodeRow.selects_formatN (p : CmdWord) (f : Reg → Reg → Word → Instr) (w : CmdWord) :
    (OpcodeRow.mk p 0xFFFFFFFF f).selects w = true ↔ w = p := by
  have : w &&& 0xFFFFFFFF#32 = w := BitVec.and_allOnes
  simp [OpcodeRow.selects, this]

/-- All the decoder can do with a whole command: a word of format N is its opcode, and the other three
formats are told by their fields (R68, R69, R72, R73). -/
theorem decodeCommand_fields (w immLo immHi : CmdWord) :
    decodeCommand w immLo immHi =
      if w = 0x00 then .command .nop
      else if fieldOpc w = 0x01 ∧ fieldRs w = 0 ∧ fieldRsv w = 0 then .command (.wri (.ofIndex (fieldRd w)) (immediate immLo immHi))
      else if fieldOpc w = 0x02 ∧ fieldRsv w = 0 then .command (.mov (.ofIndex (fieldRd w)) (.ofIndex (fieldRs w)))
      else if fieldOpc w = 0x03 ∧ fieldRd w = 0 ∧ fieldRsv w = 0 then .command (.rd (.ofIndex (fieldRs w)))
      else if w = 0x10 then .command .mum
      else if w = 0x11 then .command .mix
      else if w = 0x20 then .command .rd64
      else if w = 0x21 then .command .rd32
      else if w = 0x22 then .command .rdsm
      else if w = 0x30 then .command .hash
      else if w = 0x40 then .command .defsec
      else if w = 0x41 then .command .mksec
      else if w = 0x50 then .command .rand
      else if w = 0x60 then .command .u01
      else if w = 0x61 then .command .gau
      else .illegal (fieldOpc w) := by
  have ones8 : ∀ v : Byte, v &&& 255#8 = v := by decide
  have ones4 : ∀ v : BitVec 4, v &&& 15#4 = v := by decide
  have ones16 : ∀ v : BitVec 16, v &&& 65535#16 = v := fun v => BitVec.and_allOnes
  let answer (o : Option OpcodeRow) : Decoded :=
    match o with
    | some row => .command
        (row.build (.ofIndex (fieldRd w)) (.ofIndex (fieldRs w)) (immediate immLo immHi))
    | none => .illegal (fieldOpc w)
  have take (r : OpcodeRow) (rs : List OpcodeRow) : answer ((r :: rs).find? (·.selects w)) =
      if r.selects w = true then
        .command (r.build (.ofIndex (fieldRd w)) (.ofIndex (fieldRs w)) (immediate immLo immHi))
      else answer (rs.find? (·.selects w)) := by
    rw [List.find?_cons]; cases r.selects w <;> rfl
  change answer (opcodeMap.find? (·.selects w)) = _
  unfold opcodeMap
  simp only [take, OpcodeRow.selects_formatN]
  simp only [OpcodeRow.selects_iff, fieldOpc, fieldRd, fieldRs, fieldRsv, BitVec.reduceExtractLsb',
    ones8, ones4, ones16, BitVec.and_zero, true_and]
  rfl

/-- The fields of a word put together from an opcode and two register indices (R78). -/
theorem fields_of_assembled (o : Byte) (d r : BitVec 4) :
    let w : CmdWord := o.setWidth 32 ||| (d.setWidth 32 <<< 8) ||| (r.setWidth 32 <<< 12)
    fieldOpc w = o ∧ fieldRd w = d ∧ fieldRs w = r ∧ fieldRsv w = 0 := by
  refine ⟨?_, ?_, ?_, ?_⟩ <;> apply BitVec.eq_of_getLsbD_eq <;> intro i hi <;>
    simp only [fieldOpc, fieldRd, fieldRs, fieldRsv, BitVec.getLsbD_or, BitVec.getLsbD_setWidth,
      BitVec.getLsbD_shiftLeft, BitVec.getLsbD_extractLsb']
  · simp [show i < 32 by omega, hi, show i < 12 by omega]
  · simp [hi, show 8 + i < 32 by omega, show 8 + i < 12 by omega, show i < 32 by omega]
  · simp [hi, show 12 + i < 32 by omega, BitVec.getLsbD_of_ge o (12 + i) (by omega),
      BitVec.getLsbD_of_ge d (12 + i - 8) (by omega), show ¬ (12 + i < 8) by omega,
      show i < 32 by omega]
  · simp [hi, show 16 + i < 32 by omega, BitVec.getLsbD_of_ge o (16 + i) (by omega),
      BitVec.getLsbD_of_ge d (16 + i - 8) (by omega), BitVec.getLsbD_of_ge r (16 + i - 12) (by omega),
      show ¬ (16 + i < 8) by omega, show ¬ (16 + i < 12) by omega]

/-- An immediate is read back from its two words (R70). -/
theorem immediate_of_words (imm : Word) :
    immediate (imm.extractLsb' 0 32) (imm.extractLsb' 32 32) = imm := by
  ext i hi
  simp only [immediate, BitVec.getElem_or, BitVec.getElem_setWidth, BitVec.getElem_shiftLeft,
    BitVec.getLsbD_extractLsb']
  by_cases h : i < 32
  · simp [h, BitVec.getLsbD_eq_getElem hi]
  · simp [h, show i - 32 < 32 by omega, show 32 + (i - 32) = i by omega, BitVec.getLsbD_eq_getElem hi]

/-- The low immediate word is bits 31:0. -/
theorem immediate_low (immLo immHi : CmdWord) : (immediate immLo immHi).extractLsb' 0 32 = immLo := by
  ext i hi
  simp [immediate, hi]
  omega

/-- The high immediate word is bits 63:32. -/
theorem immediate_high (immLo immHi : CmdWord) :
    (immediate immLo immHi).extractLsb' 32 32 = immHi := by
  ext i hi
  simp [immediate, hi, show 32 + i < 64 by omega]

/-- Register names and indices are in bijection (10_state.md R21). -/
@[simp] theorem Reg.ofIndex_index (r : Reg) : Reg.ofIndex r.index = r := by
  cases r <;> rfl

@[simp] theorem Reg.index_ofIndex (i : BitVec 4) : (Reg.ofIndex i).index = i := by
  revert i; decide

end Sys2Proof
end

