-- ==== Sys2Proof/Laws/Hash.lean ====
section
/-! SUPPORT. The loops of wyhash (42_hash.md R99, R100): what they keep and where they stop. -/

namespace Sys2Proof.Machine

theorem blockCont_iff (bld : Build) (i : Nat) :
    blockCont bld i = true ↔ if bld.blockGe48 = true then 48 ≤ i else 48 < i := by
  unfold blockCont
  cases bld.blockGe48 <;> simp

/-- The block loop only takes whole blocks (R99). -/
theorem le_of_blockCont {bld : Build} {i : Nat} (h : blockCont bld i = true) : 48 ≤ i := by
  rw [blockCont_iff] at h
  split at h <;> omega

section

variable (bld : Build) (M : Nat → Byte) (s : Secret)

/-- The cursor and the remaining length always add up to the end of the buffer (R101). -/
theorem blockLoop_sum (fuel : Nat) (x : HashLoop) :
    (blockLoop bld M s fuel x).q + (blockLoop bld M s fuel x).i = x.q + x.i := by
  induction fuel generalizing x with
  | zero => rfl
  | succ fuel ih =>
    rw [blockLoop]
    split
    · have := le_of_blockCont ‹_›
      rw [ih]
      simp only [blockStep]
      omega
    · rfl

theorem chunkLoop_sum (fuel : Nat) (x : HashLoop) :
    (chunkLoop bld M s fuel x).q + (chunkLoop bld M s fuel x).i = x.q + x.i := by
  induction fuel generalizing x with
  | zero => rfl
  | succ fuel ih =>
    rw [chunkLoop]
    split
    · rw [ih]
      simp only [chunkStep]
      omega
    · rfl

/-- The cursor never moves back. -/
theorem le_blockLoop_q (fuel : Nat) (x : HashLoop) : x.q ≤ (blockLoop bld M s fuel x).q := by
  induction fuel generalizing x with
  | zero => exact le_refl _
  | succ fuel ih =>
    rw [blockLoop]
    split
    · exact le_trans (by simp [blockStep]) (ih _)
    · exact le_refl _

/-- The fuel never stops the block loop: it ends because no block is left to take (log 15). -/
theorem blockLoop_stops (fuel : Nat) (x : HashLoop) (h : x.i ≤ fuel) :
    blockCont bld (blockLoop bld M s fuel x).i = false := by
  induction fuel generalizing x with
  | zero =>
    rw [blockLoop, ← Bool.not_eq_true, blockCont_iff]
    split <;> omega
  | succ fuel ih =>
    rw [blockLoop]
    split
    · have := le_of_blockCont ‹_›
      exact ih _ (by simp only [blockStep]; omega)
    · simp_all

/-- The fuel never stops the chunk loop: at most 16 bytes remain (R100; log 15). -/
theorem chunkLoop_stops (fuel : Nat) (x : HashLoop) (h : x.i ≤ fuel) :
    (chunkLoop bld M s fuel x).i ≤ 16 := by
  induction fuel generalizing x with
  | zero => rw [chunkLoop]; omega
  | succ fuel ih =>
    rw [chunkLoop]
    split
    · exact ih _ (by simp only [chunkStep]; omega)
    · omega

/-- A chunk is only taken when a byte remains after it (R100). -/
theorem chunkLoop_leaves_a_byte (fuel : Nat) (x : HashLoop) (h : 1 ≤ x.i) :
    1 ≤ (chunkLoop bld M s fuel x).i := by
  induction fuel generalizing x with
  | zero => exact h
  | succ fuel ih =>
    rw [chunkLoop]
    split
    · exact ih _ (by simp only [chunkStep]; omega)
    · exact h

end

end Sys2Proof.Machine
end

