-- ==== Sys2Proof/Laws/Mix.lean ====
section
/-! SUPPORT. The 128-bit product as a natural number, and its two halves. -/

namespace Sys2Proof.Machine

/-- The product never wraps: 128 bits hold it exactly (40_mix.md R86). -/
theorem product128_toNat (a b : Word) : (product128 a b).toNat = a.toNat * b.toNat := by
  have ha := a.isLt
  have hb := b.isLt
  have h : a.toNat * b.toNat < 2 ^ 128 :=
    calc a.toNat * b.toNat < 2 ^ 64 * 2 ^ 64 := Nat.mul_lt_mul'' ha hb
      _ = 2 ^ 128 := by norm_num
  simp only [product128, BitVec.toNat_mul, BitVec.toNat_setWidth]
  rw [Nat.mod_eq_of_lt (a := a.toNat) (by omega), Nat.mod_eq_of_lt (a := b.toNat) (by omega),
    Nat.mod_eq_of_lt h]

/-- The two halves of any 128-bit value make it up. -/
theorem halves_toNat (p : BitVec 128) :
    (p.extractLsb' 64 64).toNat * 2 ^ 64 + (p.extractLsb' 0 64).toNat = p.toNat := by
  have := p.isLt
  simp only [BitVec.extractLsb'_toNat, Nat.shiftRight_eq_div_pow]
  omega

end Sys2Proof.Machine
end

