-- ==== Sys2Proof/Laws/PerInstr.lean ====
section
/-! SUPPORT. Statements for all instructions, made per constructor. -/

namespace Sys2Proof.Laws

/-- The family `EncodingShape`: the encoding of a command begins with a word whose `OPC` is the
command's, and has as many words as that word asks for (30_encoding.md R68, R71). -/
def EncodingShape.Statement (i : Instr) : Prop :=
  ∃ w rest, encode i = w :: rest ∧ fieldOpc w = i.opcode ∧ (encode i).length = commandLength w

theorem EncodingShape.nop : Statement .nop := ⟨_, _, rfl, rfl, rfl⟩

theorem EncodingShape.wri (dst : Reg) (imm : Word) : Statement (.wri dst imm) :=
  ⟨_, _, rfl, by cases dst <;> rfl, by cases dst <;> rfl⟩

theorem EncodingShape.mov (dst src : Reg) : Statement (.mov dst src) :=
  ⟨_, _, rfl, by cases dst <;> cases src <;> rfl, by cases dst <;> cases src <;> rfl⟩

theorem EncodingShape.rd (src : Reg) : Statement (.rd src) :=
  ⟨_, _, rfl, by cases src <;> rfl, by cases src <;> rfl⟩

theorem EncodingShape.mum : Statement .mum := ⟨_, _, rfl, rfl, rfl⟩

theorem EncodingShape.mix : Statement .mix := ⟨_, _, rfl, rfl, rfl⟩

theorem EncodingShape.rd64 : Statement .rd64 := ⟨_, _, rfl, rfl, rfl⟩

theorem EncodingShape.rd32 : Statement .rd32 := ⟨_, _, rfl, rfl, rfl⟩

theorem EncodingShape.rdsm : Statement .rdsm := ⟨_, _, rfl, rfl, rfl⟩

theorem EncodingShape.hash : Statement .hash := ⟨_, _, rfl, rfl, rfl⟩

theorem EncodingShape.defsec : Statement .defsec := ⟨_, _, rfl, rfl, rfl⟩

theorem EncodingShape.mksec : Statement .mksec := ⟨_, _, rfl, rfl, rfl⟩

theorem EncodingShape.rand : Statement .rand := ⟨_, _, rfl, rfl, rfl⟩

theorem EncodingShape.u01 : Statement .u01 := ⟨_, _, rfl, rfl, rfl⟩

theorem EncodingShape.gau : Statement .gau := ⟨_, _, rfl, rfl, rfl⟩

end Sys2Proof.Laws
end

