-- ==== Sys2Proof/Laws/Secret.lean ====
section
/-! SUPPORT. The search of MKSEC: what the fuelled functions find is what the search ends with. -/

namespace Sys2Proof.Machine

/-- Whatever the fuel, `searchWord` answers the first accepted attempt (43_secret.md R108). -/
theorem searchWord_sound {bld : Build} {used : List Byte} {fuel left : Nat} {t t' : Word}
    {vs : List Byte} (h : searchWord bld used fuel t = some (left, t', vs)) :
    SearchFinds bld used t t' vs := by
  induction fuel generalizing t with
  | zero => cases h
  | succ fuel ih =>
    rcases ha : attempt bld t with ⟨t1, vs1⟩
    simp only [searchWord, ha] at h
    split at h
    · rename_i hacc
      obtain ⟨-, rfl, rfl⟩ := by simpa using h
      exact .accept _ _ _ ha hacc
    · rename_i hacc
      exact .reject _ _ _ _ _ ha (by simpa using hacc) (ih h)

/-- What `makeSecret` answers is what `make_secret` ends with (R109). -/
theorem makeSecret_sound {bld : Build} {fuel : Nat} {seed : Word} {x : Secret}
    (h : makeSecret bld fuel seed = some x) : MakesSecret bld seed x := by
  simp only [makeSecret] at h
  split at h
  · cases h
  split at h
  · cases h
  split at h
  · cases h
  split at h
  · cases h
  rename_i f1 t1 v0 h0 _ f2 t2 v1 h1 _ f3 t3 v2 h2 _ f4 t4 v3 h3
  exact ⟨t1, t2, t3, t4, v0, v1, v2, v3, searchWord_sound h0, searchWord_sound h1,
    searchWord_sound h2, searchWord_sound h3, (Option.some.inj h).symm⟩

end Sys2Proof.Machine
end

