-- ==== Sys2Proof/Laws/Step.lean ====
section
/-! SUPPORT. All a step and all a command can do (Machine/Step.lean, Machine/Dispatch.lean). -/

namespace Sys2Proof.Machine

/-- All a step can do: it runs the command that begins the received words, it raises `ILLEGAL_CMD`
for an illegal one, or it receives the words of an incomplete one. -/
theorem step_cases (s : State) :
    (∃ i rest, takeCommand (receivedWords s.pending ++ s.port) = some (.command i, rest) ∧
      step s = exec i { s with pending := .idle, port := rest }) ∨
    (∃ opc rest, takeCommand (receivedWords s.pending ++ s.port) = some (.illegal opc, rest) ∧
      step s = .next (raise .illegalCmd opc { s with pending := .idle, port := rest })) ∨
    (takeCommand (receivedWords s.pending ++ s.port) = none ∧
      step s = .next { s with
        pending := holdWords (receivedWords s.pending ++ s.port), port := [] }) := by
  rcases h : takeCommand (receivedWords s.pending ++ s.port) with _ | ⟨d | opc, rest⟩
  · exact .inr (.inr ⟨rfl, by simp only [step, fetch, h]⟩)
  · exact .inl ⟨d, rest, rfl, by simp only [step, fetch, h]⟩
  · exact .inr (.inl ⟨opc, rest, rfl, by simp only [step, fetch, h]⟩)

/-- The words of an incomplete command are a `WRI`'s, and at most two (30_encoding.md R71). -/
theorem takeCommand_eq_none {ws : List CmdWord} (h : takeCommand ws = none) :
    ws = [] ∨ (∃ w, ws = [w] ∧ fieldOpc w = 0x01) ∨
      ∃ w immLo, ws = [w, immLo] ∧ fieldOpc w = 0x01 := by
  rcases ws with _ | ⟨w, _ | ⟨immLo, _ | ⟨immHi, rest⟩⟩⟩
  · exact .inl rfl
  all_goals
    simp only [takeCommand] at h
    split at h <;> simp_all

/-- An illegal command records the `OPC` of its first word (60_exceptions.md R130). -/
theorem takeCommand_illegal {ws : List CmdWord} {opc : Byte} {rest : List CmdWord}
    (h : takeCommand ws = some (.illegal opc, rest)) : ∃ w ws', ws = w :: ws' ∧ opc = fieldOpc w := by
  have aux {w lo hi : CmdWord} (h : decodeCommand w lo hi = .illegal opc) : opc = fieldOpc w := by
    unfold decodeCommand at h; split at h <;> simp_all
  rcases ws with _ | ⟨w, ws'⟩
  · simp [takeCommand] at h
  · refine ⟨w, ws', rfl, ?_⟩
    simp only [takeCommand] at h
    split at h
    · split at h
      · exact aux (Prod.mk.inj (Option.some.inj h)).1
      · cases h
    · exact aux (Prod.mk.inj (Option.some.inj h)).1

/-- What a command does to the state when it gives a next state: an error, a write of one register
operand, `OUT`, a result, or the secret. Every rule about all commands starts here. -/
theorem exec_cases {i : Instr} {s t : State} (h : exec i s = .next t) :
    (∃ e, mayRaise i e ∧ t = raise e i.opcode s) ∨
    (∃ dst v, (i = .wri dst v ∨ ∃ src, i = .mov dst src ∧ readReg src s = some v) ∧
      writeReg dst v s = some t) ∨
    (∃ src v, i = .rd src ∧ readReg src s = some v ∧ t = { s with out := s.out ++ [v] }) ∨
    (i = .nop ∧ t = s) ∨
    (i = .mum ∧ t = { s with lo := (wymum s.build s.a s.b).1, hi := (wymum s.build s.a s.b).2 }) ∨
    (i ∈ [Instr.mix, .rd64, .rd32, .rdsm, .hash, .u01, .gau] ∧ ∃ v, t = { s with lo := v }) ∨
    (i = .rand ∧ t = { s with
      rng := wyrandNext s.rng, lo := wyrandOutput s.build (wyrandNext s.rng) }) ∨
    (i ∈ [Instr.defsec, .mksec] ∧ ∃ x, t = writeSecret x s) := by
  have load {opc : Byte} {n : Nat} {f : (Nat → Byte) → Word}
      (ho : opc = i.opcode) (hi : i ∈ [Instr.rd64, .rd32, .rdsm, .hash])
      (h : t = loadCommand opc n f s) :
      (∃ e, mayRaise i e ∧ t = raise e i.opcode s) ∨ ∃ v, t = { s with lo := v } := by
    rcases loadCommand_cases opc n f s with ⟨e, hc, he⟩ | ⟨-, hl⟩
    · refine .inl ⟨e, ?_, by rw [h, he, ho]⟩
      rcases checkRead_cases hc with rfl | ⟨a, rfl⟩ <;> exact hi
    · exact .inr ⟨_, by rw [h, hl]⟩
  cases i with
  | nop => cases h; simp
  | wri dst imm =>
    simp only [exec, execWri] at h
    split at h <;> cases h
    · rename_i hw; exact .inr (.inl ⟨dst, imm, .inl rfl, hw⟩)
    · exact .inl ⟨.illegalReg, by simp [mayRaise, Instr.opcode], rfl⟩
  | mov dst src =>
    simp only [exec, execMov] at h
    split at h
    · cases h; exact .inl ⟨.illegalReg, by simp [mayRaise, Instr.opcode], rfl⟩
    · split at h <;> cases h
      · rename_i v hv _ hw; exact .inr (.inl ⟨dst, v, .inr ⟨src, rfl, hv⟩, hw⟩)
      · exact .inl ⟨.illegalReg, by simp [mayRaise, Instr.opcode], rfl⟩
  | rd src =>
    simp only [exec, execRd] at h
    split at h <;> cases h
    · rename_i v hv; exact .inr (.inr (.inl ⟨src, v, rfl, hv, rfl⟩))
    · exact .inl ⟨.illegalReg, by simp [mayRaise, Instr.opcode], rfl⟩
  | mum => exact .inr (.inr (.inr (.inr (.inl ⟨rfl, (Host.Outcome.next.inj h).symm⟩))))
  | mix => exact .inr (.inr (.inr (.inr (.inr (.inl ⟨by decide, _, (Host.Outcome.next.inj h).symm⟩)))))
  | rd64 =>
    rcases load rfl (by decide) (Host.Outcome.next.inj h).symm with h | h
    · exact .inl h
    · exact .inr (.inr (.inr (.inr (.inr (.inl ⟨by decide, h⟩)))))
  | rd32 =>
    rcases load rfl (by decide) (Host.Outcome.next.inj h).symm with h | h
    · exact .inl h
    · exact .inr (.inr (.inr (.inr (.inr (.inl ⟨by decide, h⟩)))))
  | rdsm =>
    simp only [exec, execRdsm] at h
    split at h
    · rcases load rfl (by decide) (Host.Outcome.next.inj h).symm with h | h
      · exact .inl h
      · exact .inr (.inr (.inr (.inr (.inr (.inl ⟨by decide, h⟩)))))
    · exact .inl ⟨.illegalLen, rfl, (Host.Outcome.next.inj h).symm⟩
  | hash =>
    rcases load rfl (by decide) (Host.Outcome.next.inj h).symm with h | h
    · exact .inl h
    · exact .inr (.inr (.inr (.inr (.inr (.inl ⟨by decide, h⟩)))))
  | defsec => exact .inr (.inr (.inr (.inr (.inr (.inr (.inr ⟨by decide, _, (Host.Outcome.next.inj h).symm⟩))))))
  | mksec =>
    simp only [exec, execMksec] at h
    split at h <;> cases h
    exact .inr (.inr (.inr (.inr (.inr (.inr (.inr ⟨by decide, _, rfl⟩))))))
  | rand => exact .inr (.inr (.inr (.inr (.inr (.inr (.inl ⟨rfl, (Host.Outcome.next.inj h).symm⟩))))))
  | u01 => exact .inr (.inr (.inr (.inr (.inr (.inl ⟨by decide, _, (Host.Outcome.next.inj h).symm⟩)))))
  | gau => exact .inr (.inr (.inr (.inr (.inr (.inl ⟨by decide, _, (Host.Outcome.next.inj h).symm⟩)))))

/-- No command touches what is not a register or `OUT` (20_memory.md R48, 10_state.md R33). -/
theorem exec_around {i : Instr} {s t : State} (h : exec i s = .next t) :
    t.mem = s.mem ∧ t.build = s.build ∧ t.mksecFuel = s.mksecFuel ∧ t.pending = s.pending ∧
      t.port = s.port := by
  rcases exec_cases h with ⟨e, -, rfl⟩ | ⟨dst, v, -, hw⟩ | ⟨_, _, -, -, rfl⟩ | ⟨-, rfl⟩ | ⟨-, rfl⟩ |
    ⟨-, v, rfl⟩ | ⟨-, rfl⟩ | ⟨-, x, rfl⟩
  case inr.inl =>
    cases dst <;> simp only [writeReg, Option.some.injEq, reduceCtorEq] at hw <;> subst hw <;> simp
  all_goals simp

end Sys2Proof.Machine
end

