-- ==== Sys2Proof/Tests/Slice0.lean ====
section
/-! SUPPORT. Tests. Expected values come from spec/95_test_vectors.md and the rules' own examples; each
test names its vector. The last part shows, for every statement with hypotheses, data that meets them. -/

namespace Sys2Proof.Tests

open Sys2Proof.Machine

/-! ### Helpers -/

/-- A block in the reset state of a build with `RNG = 0`, some words at the port and some memory. -/
def blk (ws : List CmdWord) (mem : Memory := []) (bld : Build := .default) : State :=
  .resetWith bld 0 mem ws 64

/-- The state after one step, where there is one. -/
def after (s : State) : Option State :=
  match step s with
  | .next t => some t
  | _ => none

/-- The given reading of the state after one step. -/
def see {α : Type} (f : State → α) (s : State) : Option α := (after s).map f

def errors (s : State) : Word × Word := (s.status, s.faddr)

/-- Bytes from an address on. -/
def bytesAt (a : Nat) (vs : List Byte) : Memory := vs.zipIdx.map fun c => (a + c.2, c.1)

/-- `pat(n)` of 95_test_vectors.md. -/
def pat (n : Nat) : List Byte := (List.range n).map (BitVec.ofNat 8)

/-- The buffer `01 02 03 … 10` of 95_test_vectors.md 2.2, at 0x2000. -/
def buf : Memory := bytesAt 0x2000 ((List.range 16).map fun i => BitVec.ofNat 8 (i + 1))

def strongBuild : Build := { Build.default with xorStronger := true }
def altBuild : Build := { Build.default with hashForm := .alt }
def ge48Build : Build := { Build.default with blockGe48 := true }
def literalBuild : Build := { Build.default with gauScale := .literal }

/-! ### WellFormed: each check refuses an ill-formed command (30_encoding.md R74) -/

theorem test_wellformed_refuses :
    (Instr.wri .config 1).wellFormed = false ∧ (Instr.wri .faddr 1).wellFormed = false ∧
    (Instr.wri .rsv15 1).wellFormed = false ∧ (Instr.mov .config .a).wellFormed = false ∧
    (Instr.mov .faddr .a).wellFormed = false ∧ (Instr.mov .rsv15 .a).wellFormed = false ∧
    (Instr.mov .a .rsv15).wellFormed = false ∧ (Instr.rd .rsv15).wellFormed = false := by decide

theorem test_wellformed_accepts :
    (Instr.wri .status 1).wellFormed = true ∧ (Instr.mov .status .config).wellFormed = true ∧
    (Instr.rd .faddr).wellFormed = true := by decide

/-! ### Decode: one word per constructor, written out from 30_encoding.md R68 to R72 -/

theorem test_decode_words :
    decodeTableWord 32 0x00000000 = some .nop ∧
    decodeTableWord 96 0x112233445566778800000001 = some (.wri .a 0x1122334455667788) ∧
    decodeTableWord 96 0x000000000000002a00000701 = some (.wri .rng 42) ∧
    decodeTableWord 32 0x00000c01 = some (.wri .status 0) ∧
    decodeTableWord 32 0x00002002 = some (.mov .a .lo) ∧
    decodeTableWord 32 0x0000ce02 = some (.mov .faddr .status) ∧
    decodeTableWord 32 0x0000d003 = some (.rd .config) ∧
    decodeTableWord 32 0x00000010 = some .mum ∧ decodeTableWord 32 0x00000011 = some .mix := by
  decide

theorem test_decode_words_rest :
    decodeTableWord 32 0x00000020 = some .rd64 ∧ decodeTableWord 32 0x00000021 = some .rd32 ∧
    decodeTableWord 32 0x00000022 = some .rdsm ∧ decodeTableWord 32 0x00000030 = some .hash ∧
    decodeTableWord 32 0x00000040 = some .defsec ∧ decodeTableWord 32 0x00000041 = some .mksec ∧
    decodeTableWord 32 0x00000050 = some .rand ∧ decodeTableWord 32 0x00000060 = some .u01 ∧
    decodeTableWord 32 0x00000061 = some .gau := by decide

/-- T-12 to T-16, and a `MOV` with a bit of `RSV`, an `RD` with `RD ≠ 0`. -/
theorem test_decode_refuses :
    decodeTableWord 32 0x00000004 = none ∧ decodeTableWord 32 0x00000110 = none ∧
    decodeTableWord 32 0x00010000 = none ∧ decodeTableWord 32 0x00001001 = none ∧
    decodeTableWord 32 0x000000ff = none ∧ decodeTableWord 32 0x00012002 = none ∧
    decodeTableWord 32 0x00002103 = none := by decide

/-- `step` runs the table's word next, whatever is at the port and half received. -/
theorem test_withFetchWord :
    see (fun t => (t.out, t.port, t.pending))
      ({ blk [0x4] with pending := .haveCommand 1 }.withFetchWord 32 0xd003) =
      some ([0x2], [0x4], .idle) ∧
    see (fun t => (t.a, t.port)) (State.reset.withFetchWord 96 0x112233445566778800000001) =
      some (0x1122334455667788, []) := by decide

/-! ### Reset (10_state.md R40) -/

theorem test_reset :
    State.reset.a = 0 ∧ State.reset.sec3 = 0x589965cc75374cc3 ∧ State.reset.status = 0 ∧
    State.reset.out = [] ∧ State.reset.pending = .idle ∧
    readReg .config State.reset = some 0x2 := by decide

theorem test_config_of_a_build :
    configWord ⟨true, .alt, true, .literal⟩ = 0x1f ∧ configWord ⟨false, .alt, false, .literal⟩ = 0x16 := by
  decide

/-! ### Transfer (T-1 to T-17) -/

theorem test_nop : after (blk [0x00000000]) = some (blk []) := by decide

/-- T-3, T-8. -/
theorem test_wri :
    see State.a (blk [0x00000001, 0x55667788, 0x11223344]) = some 0x1122334455667788 ∧
    see errors (blk [0x00000d01, 0x00000001, 0x00000000]) = some (0x0121, 0) := by decide

/-- T-7. -/
theorem test_wri_status_clears :
    see errors { blk [0x00000c01, 0x12345678, 0x00000000] with status := 0x3051, faddr := 0x1012 } =
      some (0, 0) := by decide

/-- T-4, T-10. -/
theorem test_mov :
    see (fun t => (t.a, t.lo)) { blk [0x00002002] with a := 1, lo := 2 } = some (2, 2) ∧
    see errors (blk [0x0000ff02]) = some (0x0221, 0) := by decide

/-- T-6, T-11. -/
theorem test_rd :
    see State.out { blk [0x0000d003] with out := [7] } = some [7, 0x2] ∧
    see (fun t => (t.out, errors t)) (blk [0x0000f003]) = some ([], 0x0321, 0) := by decide

/-- T-12 to T-16: the error and the words consumed. -/
theorem test_illegal_words :
    see (fun t => (errors t, t.port)) (blk [0x00000004, 5]) = some ((0x0411, 0), [5]) ∧
    see errors (blk [0x00000110]) = some (0x1011, 0) ∧
    see errors (blk [0x00010000]) = some (0x0011, 0) ∧
    see (fun t => (t.status, t.a, t.port)) (blk [0x00001001, 0xaaaaaaaa, 0xbbbbbbbb, 5]) =
      some (0x0111, 0, [5]) ∧
    see errors (blk [0x000000ff]) = some (0xff11, 0) := by decide

/-- T-17: the second error sets `MULTI` only. -/
theorem test_second_error :
    see errors { blk [0x0000f003] with status := 0x0411 } = some (0x0413, 0) := by decide

/-! ### Multiply-mix (M-5, M-6, M-8) -/

theorem test_mum :
    see (fun t => (t.lo, t.hi)) { blk [0x10] with a := 0x0123456789abcdef, b := 0xfedcba9876543210 } =
      some (0x2236d88fe5618cf0, 0x0121fa00ad77d742) ∧
    see (fun t => (t.lo, t.hi)) { blk [0x10] [] strongBuild with
      a := 0x0123456789abcdef, b := 0xfedcba9876543210 } =
      some (0x23159de86cca411f, 0xfffd4098db23e552) := by decide

theorem test_mix :
    see (fun t => (t.lo, t.hi)) { blk [0x11] with
      a := 0xa0761d6478bd642f, b := 0xe7037ed1a0b428db, hi := 9 } = some (0x1ff5c2923a788d2c, 9) ∧
    see State.lo { blk [0x11] [] strongBuild with a := 0xffffffffffffffff, b := 2 } = some 2 := by
  decide

/-! ### Readers (RD-2, RD-4, RD-6 and the error cases) -/

theorem test_rd64 :
    see State.lo { blk [0x20] buf with ptr := 0x2003 } = some 0x0b0a090807060504 ∧
    see (fun t => (errors t, t.lo)) { blk [0x20] with ptr := 0xfffffffffffffff9, lo := 3 } =
      some ((0x2041, 0xfffffffffffffff9), 3) := by decide

theorem test_rd32 :
    see State.lo { blk [0x21] buf with ptr := 0x2005, lo := 0xffffffffffffffff } = some 0x09080706 ∧
    see errors { blk [0x21] (bytesAt 0x1000 [0, 0, 0]) with ptr := 0x1000 } =
      some (0x2151, 0x1003) := by decide

theorem test_rdsm :
    see State.lo { blk [0x22] buf with ptr := 0x2000, len := 2 } = some 0x010202 ∧
    see State.lo { blk [0x22] buf with ptr := 0x2000, len := 3 } = some 0x010203 := by decide

/-- RD-E2, RD-E6: the length is checked before memory. -/
theorem test_rdsm_errors :
    see errors { blk [0x22] with len := 4 } = some (0x2231, 0) ∧
    see errors { blk [0x22] with ptr := 0xffffffffffffffff, len := 2 } =
      some (0x2241, 0xffffffffffffffff) := by decide

/-! ### HASH (H-97, H-48, H-ALT-0, H-E2, H-E3) -/

theorem test_hash :
    see State.lo { blk [0x30] (bytesAt 0x1000 (pat 97)) with ptr := 0x1000, len := 97 } =
      some 0xad119c0496db2624 ∧
    see State.lo { blk [0x30] (bytesAt 0x1000 (pat 48)) ge48Build with ptr := 0x1000, len := 48 } =
      some 0x154594babbc34a73 ∧
    see State.lo (blk [0x30] [] altBuild) = some 0x42bc986dc5eec4d3 := by decide

theorem test_hash_errors :
    see errors { blk [0x30] (bytesAt 0x1000 (pat 18)) with ptr := 0x1000, len := 32 } =
      some (0x3051, 0x1012) ∧
    see errors { blk [0x30] with ptr := 0xfffffffffffffff0, len := 17 } =
      some (0x3041, 0xfffffffffffffff0) := by decide

/-! ### Secrets (R106, S-1) -/

theorem test_defsec :
    see (fun t => (t.sec0, t.sec1, t.sec2, t.sec3)) { blk [0x40] with sec0 := 1, sec3 := 2 } =
      some (0xa0761d6478bd642f, 0xe7037ed1a0b428db, 0x8ebc6af09c88c6e3, 0x589965cc75374cc3) := by
  decide

/-- The secret of vector S-1. -/
def secretS1 : Secret :=
  { s0 := 0x4b932e6659d22d56, s1 := 0x74c9f0990fa595e1
    s2 := 0xe8c31bb18b554733, s3 := 0x1e5a393a724dc68e }

/-- S-1 takes 1 + 4 + 11 + 15 attempts. -/
theorem test_mksec_s1 :
    makeSecret .default 31 1 = some secretS1 ∧ makeSecret .default 30 1 = none := by
  decide +kernel

/-! ### RAND (R-M, R-0 XS) -/

theorem test_rand :
    see (fun t => (t.rng, t.lo, t.hi)) { blk [0x50] with rng := 0xffffffffffffffff, hi := 4 } =
      some (0x2d358dccaa6c78a4, 0x10ba1525e333549e, 4) ∧
    see State.lo (blk [0x50] [] strongBuild) = some 0x11fd861b1b775c1f := by decide

/-! ### U01, GAU -/

/-- U-2, U-3, U-5, U-7. -/
theorem test_u01 :
    see State.lo { blk [0x60] with a := 0xfff } = some 0 ∧
    see State.lo { blk [0x60] with a := 0x1000 } = some 0x3cb0000000000000 ∧
    see State.lo { blk [0x60] with a := 0x0010000000000000 } = some 0x3f30000000000000 ∧
    see State.lo { blk [0x60] with a := 0xffffffffffffffff } = some 0x3feffffffffffffe := by decide

/-- G-3, G-5, G-6, G-2. -/
theorem test_gau :
    see State.lo { blk [0x61] with a := 0x00000000ffffffff } = some 0 ∧
    see State.lo { blk [0x61] with a := 0x0000000000000001 } = some 0xc015eb99734b41ef ∧
    see State.lo { blk [0x61] [] literalBuild with a := 0x8000000000000001 } =
      some 0xc03b3f58cc85b4ba ∧
    see State.lo { blk [0x61] [] literalBuild with a := 0xffffffffffffffff } =
      some 0x403d105eb806161c := by decide

/-! ### Witnesses: every statement's hypotheses can be met -/

/-- LegalWordsAreTheEncodingOfTheirCommand, for one word and for three. -/
theorem witness_legal_words :
    decodeCommand 0x2002 7 8 = .command (.mov .a .lo) ∧ fieldOpc 0x2002 ≠ 0x01 ∧
    decodeCommand 0x0701 42 0 = .command (.wri .rng 42) ∧ fieldOpc 0x0701 = 0x01 := by decide

/-- AtMostOneOpcodeRowSelectsAWord. -/
theorem witness_row : ∃ r, opcodeMap[(4 : Fin 15).val]? = some r ∧ r.selects 0x10 = true :=
  ⟨_, rfl, by decide⟩

/-- IllegalWordsRaiseIllegalCmd: an illegal word of each length, and a legal one; the words of T-15
all at the port, and the first two of them held from before. -/
theorem witness_illegal_words :
    illegalWord 0x1001 ∧ fieldOpc 0x1001 = 0x01 ∧
    illegalWord 0x0004 ∧ fieldOpc 0x0004 ≠ 0x01 ∧ illegalWord 0x10000 ∧ ¬ illegalWord 0xff02 ∧
    receivedWords (blk [0x1001, 1, 2]).pending ++ (blk [0x1001, 1, 2]).port = 0x1001 :: 1 :: 2 :: [] ∧
    (let s := { blk [2, 5] with pending := .haveLow 0x1001 1 }
     receivedWords s.pending ++ s.port = 0x1001 :: 1 :: 2 :: [5]) ∧
    receivedWords (blk [0x4, 5]).pending ++ (blk [0x4, 5]).port = 0x4 :: [5] := by
  unfold illegalWord; decide

/-- AnIncompleteWriHasNotStarted and WordsMayArriveOneAtATime: the words of P7, one or two of which
have arrived. -/
theorem witness_incomplete_wri :
    fieldOpc 0x0101 = 0x01 ∧ fieldOpc 0x0010 ≠ 0x01 ∧
    receivedWords (blk [0x0101]).pending ++ (blk [0x0101]).port = [0x0101] ∧
    (let s := { blk [7] with pending := .haveCommand 0x0101 }
     receivedWords s.pending ++ s.port = [0x0101, 7]) ∧
    (blk []).pending = .idle ∧ (blk []).port = [] := by decide

/-- StepRunsTheCommandAtThePort, also for a command completed by its last word. -/
theorem witness_step :
    (let s := { blk [0x11223344, 0x10] with pending := .haveLow 0x1 0x55667788 }
     takeCommand (receivedWords s.pending ++ s.port) =
       some (.command (.wri .a 0x1122334455667788), [0x10])) ∧
    takeCommand (receivedWords (blk [0x10]).pending ++ (blk [0x10]).port) =
      some (.command .mum, []) := by decide

/-- AWaitingBlockKeepsItsState, for each of the three decode states. -/
theorem witness_waiting :
    DecodeInv (.haveCommand 0x0101) ∧ DecodeInv (.haveLow 0x0101 7) ∧ DecodeInv .idle ∧
    (blk []).port = [] := by
  refine ⟨?_, ?_, trivial, rfl⟩ <;> simp only [DecodeInv] <;> decide

/-- NoStepWritesMemoryOrTheBuild, ConfigReportsTheBuild, OutIsAQueueThatOnlyRdFills,
DataOperandsNeverRaise: steps and commands with a next state. -/
theorem witness_next :
    step (blk [0x2003]) = .next { blk [] with out := [0] } ∧
    exec .defsec (blk []) = .next (blk []) ∧ exec .nop (blk []) = .next (blk []) :=
  ⟨rfl, rfl, rfl⟩

/-- OutIsAQueueThatOnlyRdFills: a queue with a head, a legal `RD`, a refused step (an `MKSEC` of seed 1
with 30 attempts, S-1), and a move that leaves the queue alone; HostMovesLeaveTheRegisters. -/
theorem witness_queue :
    Reg.lo ≠ .rsv15 ∧
    takeCommand (receivedWords (blk [0x2003]).pending ++ (blk [0x2003]).port) =
      some (.command (.rd .lo), []) ∧
    step { blk [0x41] with seed := 1, mksecFuel := 30 } = .refused .mksecFuelExhausted ∧
    ({ blk [] with out := [7, 8] } : State).out = 7 :: [8] ∧
    EnvMove.present [1] ≠ .takeOut ∧ ∀ draw, EnvMove.present [1] ≠ .reset draw :=
  ⟨by decide, by decide, by
    have h : step { blk [0x41] with seed := 1, mksecFuel := 30 } =
        execMksec { blk [] with seed := 1, mksecFuel := 30 } := rfl
    have hf : makeSecret { blk [] with seed := 1, mksecFuel := 30 }.build
        { blk [] with seed := 1, mksecFuel := 30 }.mksecFuel
        { blk [] with seed := 1, mksecFuel := 30 }.seed = none := test_mksec_s1.2
    rw [h, execMksec, hf], rfl, by decide, fun _ => by simp⟩

/-- ConfigReportsTheBuild: the default build. -/
theorem witness_default_build : (blk []).build = .default := rfl

/-- FormatNFixesAllBits: a word of `MUM`'s opcode that is not `MUM` (T-13). -/
theorem witness_format_n :
    Instr.mum ∈ [Instr.nop, .mum, .mix] ∧ fieldOpc 0x110 = Instr.mum.opcode ∧
    decodeCommand 0x110 0 0 ≠ .command .mum := by decide

/-- DataOperandsNeverRaise: a legal command that reads no memory and does not write `STATUS`; two states
that agree on `PTR`, `LEN`, memory, `STATUS` and `FADDR`, and `HASH` of each. -/
theorem witness_data_operands :
    (Instr.mov .a .status).wellFormed = true ∧ Instr.mov .a .status ∉ [Instr.rd64, .rd32, .rdsm, .hash] ∧
    ¬ writesStatus (.mov .a .status) ∧ exec (.mov .a .status) (blk []) = .next (blk []) ∧
    (let s := { blk [] with len := 1 }
     let s' := { blk [] [] strongBuild with len := 1, seed := 5, sec0 := 7 }
     s'.ptr = s.ptr ∧ s'.len = s.len ∧ s'.mem = s.mem ∧ s'.status = s.status ∧ s'.faddr = s.faddr ∧
     exec .hash s = .next (raise (.bus 0) 0x30 s) ∧ exec .hash s' = .next (raise (.bus 0) 0x30 s')) :=
  ⟨by decide, by decide, by simp [writesStatus], rfl, rfl, rfl, rfl, rfl, rfl, rfl, rfl⟩

/-- CommandsWriteOnlyTheRegistersTheyName: a command that writes, one that raises and one that writes
`STATUS`; a register outside each list. -/
theorem witness_writes :
    exec .u01 (blk []) = .next (blk []) ∧ Reg.hi ∉ writtenRegs .u01 ∧
    exec (.rd .rsv15) (blk []) = .next (raise .illegalReg 0x03 (blk [])) ∧
    (raise .illegalReg 0x03 (blk [])).status ≠ (blk []).status ∧
    exec (.wri .status 5) { blk [] with status := 0x0321 } = .next (blk []) ∧
    Reg.a ∉ writtenRegs (.wri .status 5) :=
  ⟨rfl, by decide, rfl, by decide, rfl, by decide⟩

/-- InvHoldsAfterReset: a memory with bytes in it, in canonical form. -/
theorem witness_wf : Memory.wf [(0x1000, 1), (0xffffffffffffffff, 2)] := by decide

/-- EveryStepKeepsInv, EveryHostMoveKeepsInv: a state with an error recorded and a half received
`WRI`, over memory, and its step. -/
theorem witness_inv :
    let s := { blk [7] [(0x1000, 1)] with
      status := 0x2151, faddr := 0x1003, pending := .haveCommand 0x0101 }
    Inv s ∧ ∃ t, step s = .next t := by
  refine ⟨⟨?_, ?_, by decide⟩, _, rfl⟩
  · unfold StatusInv; decide
  · simp only [DecodeInv]; decide

/-- ResultsDoNotDependOnStatus: commands that name neither register. -/
theorem witness_status_free : ¬ readsStatus .hash ∧ ¬ readsStatus (.mov .status .a) := by
  simp [readsStatus]

/-- NoCommandReadsOutsideItsReadSet: two memories that agree on `[0x2000, 0x2004)` only. -/
theorem witness_read_set :
    readSetSize .rd32 { blk [] buf with ptr := 0x2000 } = some 4 ∧ memWrite buf 0x2004 9 ≠ buf ∧
    ∀ k, k < 4 → memByte (memWrite buf 0x2004 9) (0x2000 + k) = memByte buf (0x2000 + k) := by
  decide

/-- RaiseRecordsTheFirstError, each clause. -/
theorem witness_status :
    statusErr 0x0412 = false ∧ statusErr 0x0411 = true ∧
    encode (.mov .a .lo) = 0x2002 :: [] := by decide

/-- OnlyAStatusWriteClearsAnError: a source that is not 15, a step that keeps an error and one that
clears it. -/
theorem witness_kept_error :
    Reg.config ≠ .rsv15 ∧ statusErr 0x0411 = true ∧
    step { blk [0xf003] with status := 0x0411 } = .next { blk [] with status := 0x0413 } ∧
    step { blk [0x0c01, 1, 0] with status := 0x0411 } = .next (blk []) ∧
    takeCommand [0x0c01, 1, 0] = some (.command (.wri .status 1), []) :=
  ⟨by decide, by decide, rfl, rfl, by decide⟩

/-- IllegalRegisterIndicesRaise. -/
theorem witness_ill_formed : (Instr.mov .config .a).wellFormed = false := by decide

/-- CheckReadFindsTheRightError and MemoryCommandsRaiseInOrder at the top of the address space: one
byte too many, and the last read set that fits, with its last byte refused. -/
theorem witness_check_read :
    2 ^ 64 < (0xfffffffffffffff9 : Word).toNat + 8 ∧
    (0xfffffffffffffff8 : Word).toNat + 8 ≤ 2 ^ 64 ∧
    (let m := bytesAt 0xfffffffffffffff8 (pat 7)
     memAdmits m 0xffffffffffffffff = false ∧
     ∀ k, k < 7 → memAdmits m (0xfffffffffffffff8 + k) = true) ∧
    readSetSize .rd64 (blk []) = some 8 ∧ readSetSize .hash { blk [] with len := 17 } = some 17 := by
  decide

/-- MemoryCommandsRaiseInOrder, the lengths `RDSM` refuses, beside those it takes. -/
theorem witness_rdsm_len :
    (0 : Word).toNat = 0 ∧ 3 < (4 : Word).toNat ∧ readSetSize .rdsm { blk [] with len := 3 } = some 3 ∧
    readSetSize .rdsm { blk [] with len := 4 } = none := by decide

/-- WriWritesItsImmediate, MovCopiesItsSource, RdAppendsToOut: the boundaries of the index clauses. -/
theorem witness_indices :
    Reg.sec3.index.toNat = 11 ∧ Reg.status.index.toNat = 12 ∧ Reg.config.index.toNat = 13 ∧
    Reg.faddr.index.toNat = 14 ∧ Reg.rsv15.index.toNat = 15 := by decide

/-- MumWritesTheExactProduct, HashFormsAreAsStated: both kinds of build. -/
theorem witness_builds :
    Build.default.xorStronger = false ∧ strongBuild.xorStronger = true ∧
    Build.default.hashForm = .doc ∧ altBuild.hashForm = .alt := by decide

/-- Rd64LoadsEightBytes, Rd32LoadsFourBytes: readable buffers that end the address space. -/
theorem witness_readable_top :
    Readable (bytesAt 0xfffffffffffffff8 (pat 8)) 0xfffffffffffffff8 8 ∧
    Readable (bytesAt 0xfffffffffffffffc (pat 4)) 0xfffffffffffffffc 4 := by
  unfold Readable; decide

/-- Rd64LoadsEightBytes, Rd32LoadsFourBytes, RdsmLoadsThreeBytePositions: an error of `CheckRead`. -/
theorem witness_unreadable :
    checkRead [] 0xfffffffffffffff9 8 = some (.range 0xfffffffffffffff9) ∧
    checkRead (bytesAt 0x1000 [0, 0, 0]) 0x1000 4 = some (.bus 0x1003) ∧
    checkRead [] 0xffffffffffffffff (2 : Word).toNat = some (.range 0xffffffffffffffff) := by decide

/-- RdsmLoadsThreeBytePositions, at both ends of the lengths. -/
theorem witness_readable_small :
    1 ≤ (1 : Word).toNat ∧ (3 : Word).toNat ≤ 3 ∧ Readable buf 0x2000 (1 : Word).toNat ∧
    Readable buf 0x200d (3 : Word).toNat := by
  unfold Readable; decide

/-- HashIsTheFoldOverItsBytes, with the bytes of `pat(17)`; HashOfNothingReadsNothing. -/
theorem witness_hash_bytes :
    (let s := { blk [] (bytesAt 0x1000 (pat 17)) with ptr := 0x1000, len := 17 }
     (pat 17).length = s.len.toNat ∧ s.ptr.toNat + s.len.toNat ≤ 2 ^ 64 ∧
     ∀ k, k < s.len.toNat → memByte s.mem (s.ptr.toNat + k) = (pat 17)[k]?) ∧
    (blk []).len = 0 := by decide

/-- HashLoopsStopInTheLastSixteenBytes, at the shortest long input. -/
theorem witness_long : 16 < 17 ∧ Build.default.blockGe48 = false := by decide

/-- WyhashReadsOnlyItsBuffer: two snapshots that agree on `[5, 8)` and differ at 8. -/
theorem witness_snapshots :
    let M : Nat → Byte := fun _ => 0
    let M' : Nat → Byte := fun a => if a = 8 then 1 else 0
    (∀ k, k < 3 → M (5 + k) = M' (5 + k)) ∧ M 8 ≠ M' 8 := by decide

/-- MksecWritesTheSecretOfItsSearch, MksecIsRefusedOnlyIfItNeverEnds,
DerivedSecretsAreBalancedAndDistinct: a search that ends, under the reset fuel. -/
theorem witness_makes_secret :
    MakesSecret State.reset.build 1 secretS1 ∧ 2 ^ 63 ≤ State.reset.mksecFuel :=
  ⟨makeSecret_sound test_mksec_s1.1, by decide⟩

/-- GaussianDoubleIsOddInThePopcount: words of popcounts 31 and 33, and two of popcount 31. -/
theorem witness_popcounts :
    popcount 0x7fffffff + popcount 0x1ffffffff = 64 ∧ popcount 0x7fffffff < 32 ∧
    popcount 0x7fffffff = popcount 0x7fffffff00000000 := by decide

end Sys2Proof.Tests
end

section
/-! The byte table (00_scope.md R19). -/

namespace Sys2Proof.Machine

theorem table70_length : table70.length = 70 := by decide

/-- R19 as a computation: the table is closed data, so running the popcount test over the 256 byte
values, in ascending order, settles it. -/
theorem table70_eq_filter_popcountByte :
    table70 = ((List.range 256).map (BitVec.ofNat 8)).filter fun v => popcountByte v = 4 := by
  decide

/-- Settles O47: the length and the contents, each read off the table. -/
theorem tableListsTheBalancedBytes : Obligations.TableListsTheBalancedBytes :=
  ⟨table70_length, table70_eq_filter_popcountByte⟩

end Sys2Proof.Machine
end

section
/-! What a step does, given what begins the received words (Machine/Step.lean). -/

namespace Sys2Proof.Machine

theorem step_of_command {s : State} {i : Instr} {rest : List CmdWord}
    (h : takeCommand (receivedWords s.pending ++ s.port) = some (.command i, rest)) :
    step s = exec i { s with pending := .idle, port := rest } := by
  simp only [step, fetch, h]

theorem step_of_illegal {s : State} {opc : Byte} {rest : List CmdWord}
    (h : takeCommand (receivedWords s.pending ++ s.port) = some (.illegal opc, rest)) :
    step s = .next (raise .illegalCmd opc { s with pending := .idle, port := rest }) := by
  simp only [step, fetch, h]

theorem step_of_waiting {s : State}
    (h : takeCommand (receivedWords s.pending ++ s.port) = none) :
    step s = .next { s with
      pending := holdWords (receivedWords s.pending ++ s.port), port := [] } := by
  simp only [step, fetch, h]

/-- No step touches host memory, the build or the fuel (20_memory.md R48, 10_state.md R33). -/
theorem step_around {s t : State} (h : step s = .next t) :
    t.mem = s.mem ∧ t.build = s.build ∧ t.mksecFuel = s.mksecFuel := by
  rcases step_cases s with ⟨i, rest, -, hs⟩ | ⟨opc, rest, -, hs⟩ | ⟨-, hs⟩ <;> rw [hs] at h
  · obtain ⟨hmem, hbuild, hfuel, -, -⟩ := exec_around h
    exact ⟨hmem, hbuild, hfuel⟩
  · cases h; simp
  · cases h; simp

/-- No move of the host changes the build (00_scope.md R7: the parameters are fixed for a build). -/
@[simp] theorem envApply_build (m : EnvMove) (s : State) : (envApply m s).build = s.build := by
  cases m <;> rfl

end Sys2Proof.Machine
end

section
/-! The output queue (10_state.md R38): a step only appends to it, and never looks at it. -/

namespace Sys2Proof.Machine

/-- The outcome with `o` put in front of what its `OUT` holds. -/
def prependOut (o : List Word) : Host.Outcome State Fault Refusal → Host.Outcome State Fault Refusal
  | .next t => .next { t with out := o ++ t.out }
  | .fault f => .fault f
  | .refused r => .refused r

@[simp] theorem prependOut_next (o : List Word) (t : State) :
    prependOut o (.next t) = .next { t with out := o ++ t.out } := rfl

theorem prependOut_eq_next_iff {o : List Word} {x : Host.Outcome State Fault Refusal} {t : State} :
    prependOut o x = .next t ↔ ∃ u, x = .next u ∧ t = { u with out := o ++ u.out } := by
  cases x <;> simp [prependOut, eq_comm]

theorem prependOut_eq_refused_iff {o : List Word} {x : Host.Outcome State Fault Refusal}
    {r : Refusal} : prependOut o x = .refused r ↔ x = .refused r := by
  cases x <;> simp [prependOut]

/-- A result that leaves `OUT` as it was is the result from an empty `OUT` with the old one put back. -/
theorem prependOut_next_emptied {t : State} {o : List Word} (h : t.out = o) :
    prependOut o (.next { t with out := [] }) = .next t := by
  subst h; simp

theorem writeReg_with_out (r : Reg) (v : Word) (s : State) (o : List Word) :
    writeReg r v { s with out := o } = (writeReg r v s).map fun t => { t with out := o } := by
  cases r <;> rfl

theorem writeReg_out {r : Reg} {v : Word} {s t : State} (h : writeReg r v s = some t) :
    t.out = s.out := by
  rcases writeReg_cases h with ⟨-, -, -, -, hout, -⟩ | ⟨-, rfl⟩
  · exact hout
  · simp

theorem loadCommand_out (opc : Byte) (n : Nat) (f : (Nat → Byte) → Word) (s : State) :
    (loadCommand opc n f s).out = s.out := by
  rcases loadCommand_cases opc n f s with ⟨e, -, h⟩ | ⟨-, h⟩ <;> simp [h]

theorem raise_eq_prependOut (e : CmdError) (opc : Byte) (s : State) :
    .next (raise e opc s) = prependOut s.out (.next (raise e opc { s with out := [] })) := by
  rw [raise_with_out e opc s [], prependOut_next_emptied (raise_out e opc s)]

theorem loadCommand_eq_prependOut (opc : Byte) (n : Nat) (f : (Nat → Byte) → Word) (s : State) :
    .next (loadCommand opc n f s) =
      prependOut s.out (.next (loadCommand opc n f { s with out := [] })) := by
  rw [loadCommand_with_out opc n f s [], prependOut_next_emptied (loadCommand_out opc n f s)]

/-- The one idea of R38: a command does from any `OUT` what it does from an empty one, behind what
`OUT` holds. -/
theorem exec_eq_prependOut (i : Instr) (s : State) :
    exec i s = prependOut s.out (exec i { s with out := [] }) := by
  cases i with
  | wri dst imm =>
    simp only [exec, execWri, writeReg_with_out]
    rcases h : writeReg dst imm s with _ | t
    · exact raise_eq_prependOut ..
    · exact (prependOut_next_emptied (writeReg_out h)).symm
  | mov dst src =>
    simp only [exec, execMov, readReg_with_out]
    rcases readReg src s with _ | v
    · exact raise_eq_prependOut ..
    · simp only [writeReg_with_out]
      rcases h : writeReg dst v s with _ | t
      · exact raise_eq_prependOut ..
      · exact (prependOut_next_emptied (writeReg_out h)).symm
  | rd src =>
    simp only [exec, execRd, readReg_with_out]
    rcases readReg src s with _ | v
    · exact raise_eq_prependOut ..
    · simp
  | rd64 => exact loadCommand_eq_prependOut ..
  | rd32 => exact loadCommand_eq_prependOut ..
  | hash => exact loadCommand_eq_prependOut ..
  | rdsm =>
    simp only [exec, execRdsm]
    split
    · exact loadCommand_eq_prependOut ..
    · exact raise_eq_prependOut ..
  | mksec =>
    simp only [exec, execMksec]
    rcases makeSecret s.build s.mksecFuel s.seed with _ | x
    · rfl
    · exact (prependOut_next_emptied (writeSecret_out x s)).symm
  | nop | mum | mix | defsec | rand | u01 | gau =>
    simp [exec, execNop, execMum, execMix, execDefsec, writeSecret, execRand, execU01, execGau]

/-- What holds of every command holds of every step, as receiving words does not read `OUT`. -/
theorem step_eq_prependOut (s : State) :
    step s = prependOut s.out (step { s with out := [] }) := by
  rcases h : takeCommand (receivedWords s.pending ++ s.port) with _ | ⟨i | opc, rest⟩
  · rw [step_of_waiting h, step_of_waiting (s := { s with out := [] }) h]
    simp
  · rw [step_of_command h, step_of_command (s := { s with out := [] }) h]
    exact exec_eq_prependOut ..
  · rw [step_of_illegal h, step_of_illegal (s := { s with out := [] }) h]
    exact raise_eq_prependOut ..

theorem step_next_with_out {s t : State} (h : step s = .next t) (o : List Word) :
    ∃ added, t.out = s.out ++ added ∧
      step { s with out := o } = .next { t with out := o ++ added } := by
  rw [step_eq_prependOut] at h
  obtain ⟨u, hu, rfl⟩ := prependOut_eq_next_iff.1 h
  refine ⟨u.out, rfl, ?_⟩
  rw [step_eq_prependOut { s with out := o }, hu, prependOut_next]

theorem step_refused_with_out {s : State} {r : Refusal} (h : step s = .refused r) (o : List Word) :
    step { s with out := o } = .refused r := by
  rw [step_eq_prependOut, prependOut_eq_refused_iff] at h ⊢
  exact h

/-- Only an `RD` writes `OUT`, and it appends the value it reads (46_transfer.md R124). -/
theorem exec_out {i : Instr} {s t : State} (h : exec i s = .next t) :
    t.out = s.out ∨ ∃ r v, i = .rd r ∧ readReg r s = some v ∧ t.out = s.out ++ [v] := by
  rcases exec_cases h with ⟨e, -, rfl⟩ | ⟨dst, v, -, hw⟩ | ⟨r, v, hi, hv, rfl⟩ | ⟨-, rfl⟩ | ⟨-, rfl⟩ |
    ⟨-, v, rfl⟩ | ⟨-, rfl⟩ | ⟨-, x, rfl⟩
  case inr.inl => exact .inl (writeReg_out hw)
  case inr.inr.inl => exact .inr ⟨r, v, hi, hv, rfl⟩
  all_goals exact .inl (by simp)

@[simp] theorem readReg_with_received (r : Reg) (s : State) (d : DecodeState) (ws : List CmdWord) :
    readReg r { s with pending := d, port := ws } = readReg r s := by
  cases r <;> rfl

theorem step_out {s t : State} (h : step s = .next t) :
    t.out = s.out ∨
    ∃ r v rest, takeCommand (receivedWords s.pending ++ s.port) = some (.command (.rd r), rest) ∧
      readReg r s = some v ∧ t.out = s.out ++ [v] := by
  rcases step_cases s with ⟨i, rest, htake, hs⟩ | ⟨opc, rest, -, hs⟩ | ⟨-, hs⟩ <;> rw [hs] at h
  · rcases exec_out h with hout | ⟨r, v, rfl, hv, hout⟩
    · exact .inl hout
    · exact .inr ⟨r, v, rest, htake, by simpa using hv, hout⟩
  · cases h; simp
  · cases h; simp

/-- Every register index but 15 reads a value (30_encoding.md R74, 10_state.md R35). -/
theorem exists_readReg {r : Reg} (hr : r ≠ .rsv15) (s : State) : ∃ v, readReg r s = some v := by
  rw [← Option.ne_none_iff_exists', ne_eq, readReg_eq_none_iff]
  simp [Reg.mayRead, hr]

theorem step_of_rd {s : State} {r : Reg} {rest : List CmdWord} (hr : r ≠ .rsv15)
    (h : takeCommand (receivedWords s.pending ++ s.port) = some (.command (.rd r), rest)) :
    ∃ v, readReg r s = some v ∧
      step s = .next { s with pending := .idle, port := rest, out := s.out ++ [v] } := by
  obtain ⟨v, hv⟩ := exists_readReg hr s
  refine ⟨v, hv, ?_⟩
  rw [step_of_command h]
  simp only [exec, execRd, readReg_with_received, hv]

/-- A move of the host that neither drains the queue nor resets the block does not touch `OUT`. -/
theorem envApply_with_out {m : EnvMove} (htake : m ≠ .takeOut) (hreset : ∀ draw, m ≠ .reset draw)
    (s : State) (o : List Word) :
    envApply m { s with out := o } = { envApply m s with out := o } := by
  cases m with
  | present ws => rfl
  | writeByte a v => rfl
  | unmapByte a => rfl
  | takeOut => exact absurd rfl htake
  | reset draw => exact absurd rfl (hreset draw)

/-- Settles O18: what steps do to `OUT` and take from it, then the three kinds of move of the host. -/
theorem outIsAQueueThatOnlyRdFills : Obligations.OutIsAQueueThatOnlyRdFills := fun s =>
  ⟨fun _ _ hr h => step_of_rd hr h,
    fun _ h => step_out h,
    fun o _ h => step_next_with_out h o,
    fun o _ h => step_refused_with_out h o,
    fun v vs h => by simp [outHead, envApply, h],
    fun _ => ⟨rfl, fun _ => rfl⟩,
    fun _ o htake hreset => envApply_with_out htake hreset s o⟩

end Sys2Proof.Machine
end

section
/-! The word `CONFIG` reads as (10_state.md R33). -/

namespace Sys2Proof.Machine

theorem configBit_getLsbD (on : Bool) (position i : Nat) :
    (configBit on position).getLsbD i = (decide (i < 64) && decide (i = position) && on) := by
  rcases lt_trichotomy i position with h | rfl | h
  · simp [configBit, h, h.ne]
  · simp [configBit]
  · simp [configBit, h.ne', BitVec.getLsbD_ofBool, Nat.sub_eq_zero_iff_le, h]

/-- Bits 0 to 4 of `CONFIG` are the five parameters. -/
theorem configWord_bits (b : Build) :
    (configWord b).getLsbD 0 = b.xorStronger ∧ (configWord b).getLsbD 1 = true ∧
    (configWord b).getLsbD 2 = decide (b.hashForm = .alt) ∧
    (configWord b).getLsbD 3 = b.blockGe48 ∧
    (configWord b).getLsbD 4 = decide (b.gauScale = .literal) := by
  simp only [configWord, wideMulAvailable, BitVec.getLsbD_or, configBit_getLsbD]
  simp

/-- The bits of `CONFIG` above 4 are reserved and read as 0. -/
theorem configWord_reserved (b : Build) : configWord b >>> 5 = 0 := by
  ext i hi
  have above (p : Nat) (hp : p < 5) : 5 + i ≠ p := by omega
  simp [configWord, configBit_getLsbD, above, BitVec.getElem_ushiftRight]

theorem exec_wri_config (imm : Word) (s : State) :
    exec (.wri .config imm) s = .next (raise .illegalReg 0x01 s) := rfl

/-- Either operand check refuses a `MOV` to `CONFIG`: the source's for index 15, else the
destination's. -/
theorem exec_mov_config (src : Reg) (s : State) :
    exec (.mov .config src) s = .next (raise .illegalReg 0x02 s) := by
  simp only [exec, execMov]
  cases readReg src s <;> rfl

/-- Settles O15: the word is computed from the build, which no step and no move of the host
changes. -/
theorem configReportsTheBuild : Obligations.ConfigReportsTheBuild := by
  intro s
  obtain ⟨hxor, hmul, hform, hge48, hscale⟩ := configWord_bits s.build
  have reads {t : State} (h : t.build = s.build) : readReg .config t = some (configWord s.build) :=
    congrArg (some ∘ configWord) h
  refine ⟨_, rfl, hxor, hmul, hform, hge48, hscale, configWord_reserved s.build, ?_, ?_,
    fun m => reads (envApply_build m s), fun imm => exec_wri_config imm s,
    fun src => exec_mov_config src s⟩
  · intro hdefault
    rw [hdefault]
    decide
  · intro t h
    obtain ⟨-, hbuild, -⟩ := step_around h
    exact reads hbuild

end Sys2Proof.Machine
end

section
/-! `CheckRead` (20_memory.md R51, R52, R63) in each of its outcomes, and the memory commands behind it. -/

namespace Sys2Proof.Machine

theorem checkRead_eq_range {m : Memory} {p : Word} {n : Nat} (h : 2 ^ 64 < p.toNat + n) :
    checkRead m p n = some (.range p) :=
  if_pos h

theorem checkRead_of_fits {m : Memory} {p : Word} {n : Nat} (h : p.toNat + n ≤ 2 ^ 64) :
    checkRead m p n = (firstRefused m p.toNat n).map fun a => .bus (BitVec.ofNat 64 a) :=
  if_neg (Nat.not_lt.2 h)

/-- The address of a `BUS` error loses nothing as a word: a read set that fits holds byte addresses. -/
theorem checkRead_eq_bus_iff {m : Memory} {p : Word} {n : Nat} (h : p.toNat + n ≤ 2 ^ 64) (a : Word) :
    checkRead m p n = some (.bus a) ↔ firstRefused m p.toNat n = some a.toNat := by
  rw [checkRead_of_fits h, Option.map_eq_some_iff]
  constructor
  · rintro ⟨x, hx, hxa⟩
    obtain ⟨-, hlt, -, -⟩ := (firstRefused_eq_some_iff ..).1 hx
    cases hxa
    rwa [BitVec.toNat_ofNat, Nat.mod_eq_of_lt (by omega)]
  · exact fun ha => ⟨a.toNat, ha, by simp⟩

theorem checkRead_eq_none_iff {m : Memory} {p : Word} {n : Nat} :
    checkRead m p n = none ↔ Readable m p n := by
  rcases Nat.lt_or_ge (2 ^ 64) (p.toNat + n) with h | h
  · have hfits : ¬ Readable m p n := fun hr => Nat.not_le.2 h hr.1
    simp [checkRead_eq_range h, hfits]
  · rw [checkRead_of_fits h, Option.map_eq_none_iff, firstRefused_eq_none_iff]
    exact (and_iff_right h).symm

theorem loadCommand_of_error {opc : Byte} {n : Nat} {f : (Nat → Byte) → Word} {s : State}
    {e : CmdError} (h : checkRead s.mem s.ptr n = some e) : loadCommand opc n f s = raise e opc s := by
  simp only [loadCommand, h]

theorem loadCommand_of_readable {opc : Byte} {n : Nat} {f : (Nat → Byte) → Word} {s : State}
    (h : Readable s.mem s.ptr n) : loadCommand opc n f s = { s with lo := f (snapshot s.mem) } := by
  simp only [loadCommand, checkRead_eq_none_iff.2 h]

theorem execRdsm_of_legal {s : State} (h : 1 ≤ s.len.toNat ∧ s.len.toNat ≤ 3) :
    execRdsm s = .next (loadCommand Instr.rdsm.opcode s.len.toNat
      (fun M => readSmall M s.ptr.toNat s.len.toNat) s) :=
  if_pos (by omega)

theorem execRdsm_of_illegal {s : State} (h : s.len.toNat = 0 ∨ 3 < s.len.toNat) :
    execRdsm s = .next (raise .illegalLen Instr.rdsm.opcode s) :=
  if_neg (by omega)

/-- Every command with a read set is the one shared form, with its own result (20_memory.md R63). -/
theorem exec_eq_loadCommand {i : Instr} {s : State} {n : Nat} (h : readSetSize i s = some n) :
    ∃ f, exec i s = .next (loadCommand i.opcode n f s) := by
  cases i with
  | rd64 => cases h; exact ⟨_, rfl⟩
  | rd32 => cases h; exact ⟨_, rfl⟩
  | hash => cases h; exact ⟨_, rfl⟩
  | rdsm =>
    obtain ⟨hlen, hn⟩ := Option.ite_none_right_eq_some.1 h
    cases hn
    exact ⟨_, execRdsm_of_legal hlen⟩
  | nop | wri | mov | rd | mum | mix | defsec | mksec | rand | u01 | gau => cases h

theorem exec_of_checkRead_error {i : Instr} {s : State} {n : Nat} {e : CmdError}
    (hn : readSetSize i s = some n) (he : checkRead s.mem s.ptr n = some e) :
    exec i s = .next (raise e i.opcode s) := by
  obtain ⟨f, hf⟩ := exec_eq_loadCommand hn
  rw [hf, loadCommand_of_error he]

theorem exec_of_readable {i : Instr} {s : State} {n : Nat}
    (hn : readSetSize i s = some n) (hr : Readable s.mem s.ptr n) :
    ∃ v, exec i s = .next { s with lo := v } := by
  obtain ⟨f, hf⟩ := exec_eq_loadCommand hn
  exact ⟨f (snapshot s.mem), by rw [hf, loadCommand_of_readable hr]⟩

/-- Settles O29: the three outcomes of `CheckRead`, carried over to the command, and the length
check of `RDSM` that comes before it. -/
theorem memoryCommandsRaiseInOrder : Obligations.MemoryCommandsRaiseInOrder := by
  intro i s
  refine ⟨fun n hn hwrap => ?_, fun n hn hfits a hlo hhi hrefused hlowest => ?_,
    fun _ => exec_of_readable, ?_⟩
  · exact exec_of_checkRead_error hn (checkRead_eq_range hwrap)
  · have hfirst := (firstRefused_eq_some_iff ..).2 ⟨hlo, hhi, hrefused, hlowest⟩
    exact exec_of_checkRead_error hn ((checkRead_eq_bus_iff hfits a).2 hfirst)
  · rintro rfl hlen
    exact execRdsm_of_illegal hlen

end Sys2Proof.Machine
end

section
/-! The bytes of the readers (20_memory.md R46, 41_readers.md R91, R92) and of the halves of a word. -/

namespace Sys2Proof.Machine

theorem read64_byte (M : Nat → Byte) (p : Nat) {k : Nat} (hk : k < 8) :
    (read64 M p).extractLsb' (8 * k) 8 = M (p + k) := by
  rw [read64, memRead_byte M p 8 k hk, if_pos hk]

theorem read32_byte (M : Nat → Byte) (p : Nat) {k : Nat} (hk : k < 8) :
    (read32 M p).extractLsb' (8 * k) 8 = if k < 4 then M (p + k) else 0 :=
  memRead_byte M p 4 k hk

theorem lowHalf_byte (x : Word) (k : Nat) :
    ((x.setWidth 32).setWidth 64).extractLsb' (8 * k) 8 =
      if k < 4 then x.extractLsb' (8 * k) 8 else 0 := by
  ext i hi
  split
  · have h32 : 8 * k + i < 32 := by omega
    have h64 : 8 * k + i < 64 := by omega
    simp [h32, h64]
  · have h32 : ¬ 8 * k + i < 32 := by omega
    simp [h32]

theorem highHalf_byte (x : Word) (k : Nat) :
    (x >>> 32).extractLsb' (8 * k) 8 = if k < 4 then x.extractLsb' (8 * (k + 4)) 8 else 0 := by
  ext i hi
  have hbit : 32 + (8 * k + i) = 8 * (k + 4) + i := by omega
  split
  · simp [hbit]
  · have h64 : 64 ≤ 8 * (k + 4) + i := by omega
    simp [hbit, BitVec.getLsbD_of_ge x _ h64]

/-- R46, the low half: byte by byte, the wider read holds the narrower one at the same address. -/
theorem read32_eq_lowHalf_read64 (M : Nat → Byte) (p : Nat) :
    read32 M p = ((read64 M p).setWidth 32).setWidth 64 := by
  refine word_ext_bytes fun k hk => ?_
  rw [read32_byte M p hk, lowHalf_byte, read64_byte M p hk]

/-- R46, the high half: the wider read holds the narrower one four addresses up. -/
theorem read64_highHalf (M : Nat → Byte) (p : Nat) : read64 M p >>> 32 = read32 M (p + 4) := by
  refine word_ext_bytes fun k hk => ?_
  rw [read32_byte M _ hk, highHalf_byte]
  split
  · rw [read64_byte M p (by omega), show p + (k + 4) = p + 4 + k by omega]
  · rfl

/-- Settles O41: the bytes of both reads, then each half of the wider one. -/
theorem widerReadsContainNarrowerOnes : Obligations.WiderReadsContainNarrowerOnes := fun M p =>
  ⟨fun _ hk => read64_byte M p hk,
    fun _ hk => (read32_byte M p (by omega)).trans (if_pos hk),
    read32_eq_lowHalf_read64 M p, read64_highHalf M p⟩

end Sys2Proof.Machine
end

section
/-! The register operands a command may not use (30_encoding.md R74, 10_state.md R35). -/

namespace Sys2Proof.Machine

/-- A command that names a register it may not use raises `ILLEGAL_REG`, and that is all it does
(R74). -/
theorem exec_of_not_wellFormed {i : Instr} (h : i.wellFormed = false) (s : State) :
    exec i s = .next (raise .illegalReg i.opcode s) := by
  cases i with
  | wri dst imm =>
    have hdst := (writeReg_eq_none_iff dst imm s).2 h
    simp only [exec, execWri, hdst]
  | mov dst src =>
    simp only [exec, execMov]
    rcases hv : readReg src s with _ | v
    · rfl
    · have hsrc : src.mayRead = true := by
        rw [← Bool.not_eq_false, ← readReg_eq_none_iff src s, hv]
        exact Option.some_ne_none v
      have hdst : dst.mayWrite = false := by simpa [Instr.wellFormed, hsrc] using h
      simp only [(writeReg_eq_none_iff dst v s).2 hdst]
  | rd src =>
    have hsrc := (readReg_eq_none_iff src s).2 h
    simp only [exec, execRd, hsrc]
  | nop | mum | mix | rd64 | rd32 | rdsm | hash | defsec | mksec | rand | u01 | gau => cases h

theorem mov_not_wellFormed_of_src {src : Reg} (h : src.mayRead = false) (dst : Reg) :
    (Instr.mov dst src).wellFormed = false := by
  simp [Instr.wellFormed, h]

theorem mov_not_wellFormed_of_dst {dst : Reg} (h : dst.mayWrite = false) (src : Reg) :
    (Instr.mov dst src).wellFormed = false := by
  simp [Instr.wellFormed, h]

/-- Settles O27: each clause but the write of `STATUS` names a command that is not well formed. -/
theorem illegalRegisterIndicesRaise : Obligations.IllegalRegisterIndicesRaise := by
  intro s
  have refused : ∀ dst ∈ [Reg.config, .faddr, .rsv15], dst.mayWrite = false := by decide
  exact ⟨exec_of_not_wellFormed rfl s,
    fun dst => exec_of_not_wellFormed (mov_not_wellFormed_of_src rfl dst) s,
    fun dst hdst =>
      ⟨fun v => exec_of_not_wellFormed (i := .wri dst v) (refused dst hdst) s,
        fun src => exec_of_not_wellFormed (mov_not_wellFormed_of_dst (refused dst hdst) src) s⟩,
    fun i h => exec_of_not_wellFormed h s,
    fun v => rfl⟩

end Sys2Proof.Machine
end

section
/-! Format N (30_encoding.md R69): the word is the opcode, zero-extended. -/

namespace Sys2Proof

/-- A word is decoded to a command by a row of the opcode map that selects it (R72). -/
theorem exists_row_of_decodeCommand {w immLo immHi : CmdWord} {i : Instr}
    (h : decodeCommand w immLo immHi = .command i) :
    ∃ row ∈ opcodeMap, row.selects w = true ∧
      row.build (.ofIndex (fieldRd w)) (.ofIndex (fieldRs w)) (immediate immLo immHi) = i := by
  unfold decodeCommand at h
  split at h
  · next row hrow =>
    exact ⟨row, List.mem_of_find?_eq_some hrow, by simpa using List.find?_some hrow,
      Decoded.command.inj h⟩
  · cases h

/-- The commands of format N: those without a register operand. -/
def formatN : List Instr :=
  [.nop, .mum, .mix, .rd64, .rd32, .rdsm, .hash, .defsec, .mksec, .rand, .u01, .gau]

theorem encode_of_formatN : ∀ i ∈ formatN, encode i = [i.opcode.setWidth 32] := by decide

/-- The decoder reads a word of format N as its command, and does not look at the immediates. -/
theorem decodeCommand_of_formatN {i : Instr} (hi : i ∈ formatN) (immLo immHi : CmdWord) :
    decodeCommand (i.opcode.setWidth 32) immLo immHi = .command i := by
  fin_cases hi <;> rfl

/-- A row that stands for a command of format N compares all 32 bits of the word. -/
theorem OpcodeRow.eq_opcode_of_selects {row : OpcodeRow} (hrow : row ∈ opcodeMap) {rd rs : Reg}
    {imm : Word} (hi : row.build rd rs imm ∈ formatN) {w : CmdWord} (hw : row.selects w = true) :
    w = (row.build rd rs imm).opcode.setWidth 32 := by
  fin_cases hrow
  · exact (OpcodeRow.selects_formatN ..).1 hw
  -- the rows of `WRI`, `MOV` and `RD`, which are not of format N
  · simp [formatN] at hi
  · simp [formatN] at hi
  · simp [formatN] at hi
  all_goals exact (OpcodeRow.selects_formatN ..).1 hw

/-- Settles O5: the row that decodes a word to a command of format N fixes the whole word, and the
decoder reads that word as the command. -/
theorem formatNFixesAllBits : Obligations.FormatNFixesAllBits := by
  intro i hi
  refine ⟨encode_of_formatN i hi, fun w immLo immHi _ => ⟨fun h => ?_, ?_⟩⟩
  · obtain ⟨row, hrow, hw, rfl⟩ := exists_row_of_decodeCommand h
    exact OpcodeRow.eq_opcode_of_selects hrow hi hw
  · rintro rfl
    exact decodeCommand_of_formatN hi immLo immHi

end Sys2Proof
end

section
/-! Encoding, then decoding, over words (30_encoding.md R68 to R71). -/

namespace Sys2Proof

theorem takeCommand_of_oneWord {w : CmdWord} (h : fieldOpc w ≠ 0x01) (rest : List CmdWord) :
    takeCommand (w :: rest) = some (decodeCommand w 0 0, rest) :=
  if_neg h

theorem takeCommand_of_threeWords {w : CmdWord} (h : fieldOpc w = 0x01) (immLo immHi : CmdWord)
    (rest : List CmdWord) :
    takeCommand (w :: immLo :: immHi :: rest) = some (decodeCommand w immLo immHi, rest) :=
  if_pos h

theorem ne_zero_of_fieldOpc {w : CmdWord} (h : fieldOpc w ≠ 0) : w ≠ 0 := by
  rintro rfl
  exact h rfl

/-- The words of format I (R68). -/
theorem decodeCommand_wri {w : CmdWord} (hopc : fieldOpc w = 0x01) (hrs : fieldRs w = 0)
    (hrsv : fieldRsv w = 0) (immLo immHi : CmdWord) :
    decodeCommand w immLo immHi = .command (.wri (.ofIndex (fieldRd w)) (immediate immLo immHi)) := by
  rw [decodeCommand_fields, if_neg (ne_zero_of_fieldOpc (hopc.trans_ne (by decide))),
    if_pos ⟨hopc, hrs, hrsv⟩]

/-- The words of format R (R68). -/
theorem decodeCommand_mov {w : CmdWord} (hopc : fieldOpc w = 0x02) (hrsv : fieldRsv w = 0)
    (immLo immHi : CmdWord) :
    decodeCommand w immLo immHi = .command (.mov (.ofIndex (fieldRd w)) (.ofIndex (fieldRs w))) := by
  rw [decodeCommand_fields, if_neg (ne_zero_of_fieldOpc (hopc.trans_ne (by decide)))]
  simp [hopc, hrsv]

/-- The words of format S (R68). -/
theorem decodeCommand_rd {w : CmdWord} (hopc : fieldOpc w = 0x03) (hrd : fieldRd w = 0)
    (hrsv : fieldRsv w = 0) (immLo immHi : CmdWord) :
    decodeCommand w immLo immHi = .command (.rd (.ofIndex (fieldRs w))) := by
  rw [decodeCommand_fields, if_neg (ne_zero_of_fieldOpc (hopc.trans_ne (by decide)))]
  simp [hopc, hrd, hrsv]

theorem fields_of_wri_word (d : BitVec 4) :
    let w : CmdWord := 0x01 ||| (d.setWidth 32 <<< 8)
    fieldOpc w = 0x01 ∧ fieldRd w = d ∧ fieldRs w = 0 ∧ fieldRsv w = 0 := by
  simpa using fields_of_assembled 0x01 d 0

theorem fields_of_rd_word (r : BitVec 4) :
    let w : CmdWord := 0x03 ||| (r.setWidth 32 <<< 12)
    fieldOpc w = 0x03 ∧ fieldRd w = 0 ∧ fieldRs w = r ∧ fieldRsv w = 0 := by
  simpa using fields_of_assembled 0x03 0 r

/-- The words of a command are taken off a stream as that command, whatever follows them. -/
theorem takeCommand_encode_append (i : Instr) (rest : List CmdWord) :
    takeCommand (encode i ++ rest) = some (.command i, rest) := by
  cases i with
  | wri dst imm =>
    obtain ⟨hopc, hrd, hrs, hrsv⟩ := fields_of_wri_word dst.index
    simp only [encode, List.cons_append, List.nil_append]
    rw [takeCommand_of_threeWords hopc, decodeCommand_wri hopc hrs hrsv, hrd, Reg.ofIndex_index,
      immediate_of_words]
  | mov dst src =>
    obtain ⟨hopc, hrd, hrs, hrsv⟩ := fields_of_assembled 0x02 dst.index src.index
    have htake := takeCommand_of_oneWord (hopc.trans_ne (by decide)) rest
    rw [decodeCommand_mov hopc hrsv, hrd, hrs, Reg.ofIndex_index, Reg.ofIndex_index] at htake
    exact htake
  | rd src =>
    obtain ⟨hopc, hrd, hrs, hrsv⟩ := fields_of_rd_word src.index
    simp only [encode, List.cons_append, List.nil_append]
    rw [takeCommand_of_oneWord (hopc.trans_ne (by decide)), decodeCommand_rd hopc hrd hrsv, hrs,
      Reg.ofIndex_index]
  | nop | mum | mix | rd64 | rd32 | rdsm | hash | defsec | mksec | rand | u01 | gau => rfl

end Sys2Proof
end

section
/-! Words as bytes (30_encoding.md R77). -/

namespace Sys2Proof

theorem wordToBytes_getElem? (w : CmdWord) (k : Fin 4) :
    (wordToBytes w)[k.val]? = some (w.extractLsb' (8 * k.val) 8) := by
  fin_cases k <;> rfl

theorem wordOfBytes_of_word (w : CmdWord) :
    wordOfBytes (w.extractLsb' 0 8) (w.extractLsb' 8 8) (w.extractLsb' 16 8) (w.extractLsb' 24 8) =
      w := by
  rw [wordOfBytes, BitVec.extractLsb'_append_extractLsb'_eq_extractLsb' (show 24 = 16 + 8 from rfl),
    BitVec.extractLsb'_append_extractLsb'_eq_extractLsb' (show 16 = 8 + 8 from rfl),
    BitVec.extractLsb'_append_extractLsb'_eq_extractLsb' (show 8 = 0 + 8 from rfl)]
  exact BitVec.extractLsb'_eq_self

theorem wordsToBytes_cons (w : CmdWord) (ws : List CmdWord) :
    wordsToBytes (w :: ws) = wordToBytes w ++ wordsToBytes ws :=
  List.flatMap_cons

theorem wordsOfBytes_wordToBytes_append (w : CmdWord) (bytes : List Byte) :
    wordsOfBytes (wordToBytes w ++ bytes) = w :: wordsOfBytes bytes :=
  congrArg (· :: wordsOfBytes bytes) (wordOfBytes_of_word w)

/-- A stream of words is read back from its bytes. -/
theorem wordsOfBytes_wordsToBytes (ws : List CmdWord) : wordsOfBytes (wordsToBytes ws) = ws := by
  induction ws with
  | nil => rfl
  | cons w ws ih => rw [wordsToBytes_cons, wordsOfBytes_wordToBytes_append, ih]

/-- A command is decoded from its bytes. -/
theorem decodeBytes_encodeBytes (i : Instr) : decodeBytes (encodeBytes i) = some (.command i) := by
  have htake : takeCommand (encode i) = some (.command i, []) := by
    simpa using takeCommand_encode_append i []
  rw [decodeBytes, encodeBytes, wordsOfBytes_wordsToBytes, htake]
  rfl

/-- Settles O9: the bytes of a word, of a stream and of a command, then those of a `WRI`. -/
theorem wordsSurviveTheirBytes : Obligations.WordsSurviveTheirBytes :=
  ⟨wordToBytes_getElem?, wordsOfBytes_wordsToBytes, decodeBytes_encodeBytes, fun _ _ => rfl, rfl⟩

end Sys2Proof
end

section
/-! The 128-bit multiply (40_mix.md R86, R88): the halves of the product, and what `MUM` writes. -/

namespace Sys2Proof.Machine

/-- The two halves of the product denote it exactly. -/
theorem product128_halves (a b : Word) :
    ((product128 a b).extractLsb' 64 64).toNat * 2 ^ 64 + ((product128 a b).extractLsb' 0 64).toNat =
      a.toNat * b.toNat :=
  (halves_toNat _).trans (product128_toNat a b)

/-- `wymum` of a default build is the pair of halves (R86). -/
theorem wymum_default {bld : Build} (h : bld.xorStronger = false) (a b : Word) :
    wymum bld a b = ((product128 a b).extractLsb' 0 64, (product128 a b).extractLsb' 64 64) := by
  simp [wymum, h]

/-- In an XOR-stronger build each half is xored into an operand (R86). -/
theorem wymum_xorStronger {bld : Build} (h : bld.xorStronger = true) (a b : Word) :
    wymum bld a b =
      (a ^^^ (product128 a b).extractLsb' 0 64, b ^^^ (product128 a b).extractLsb' 64 64) := by
  simp [wymum, h]

/-- Xoring with the same word again undoes it. -/
theorem xor_xor_self (x y : Word) : x ^^^ y ^^^ x = y := by
  rw [BitVec.xor_comm x y, BitVec.xor_assoc, BitVec.xor_self, BitVec.xor_zero]

/-- `MUM` writes the pair of `wymum`, the first to `LO` and the second to `HI` (R88). -/
theorem exec_mum (s : State) :
    exec .mum s =
      .next { s with lo := (wymum s.build s.a s.b).1, hi := (wymum s.build s.a s.b).2 } := rfl

/-- Writing `LO` and `HI` only. -/
theorem lo_hi_frame (l h : Word) (s : State) : frame [.lo, .hi] s { s with lo := l, hi := h } := by
  refine ⟨fun r hr => ?_, by simp [sameAround]⟩
  cases r <;> simp_all [readReg]

/-- Settles O35: `MUM` writes the pair of `wymum`, which holds the halves of the product as they are
in the default build, and xored into the operands in the other. -/
theorem mumWritesTheExactProduct : Obligations.MumWritesTheExactProduct := by
  refine ⟨rfl, fun s => ⟨_, exec_mum s, lo_hi_frame _ _ s, fun h => ?_, fun h => ?_⟩⟩
  · simp only [wymum_default h]
    exact product128_halves s.a s.b
  · simp only [wymum_xorStronger h, xor_xor_self]
    exact product128_halves s.a s.b

end Sys2Proof.Machine
end

section
/-! The reader commands (41_readers.md R91 to R96): each writes the word its reader composes, whose bytes
are those of the buffer. -/

namespace Sys2Proof.Machine

/-- Every byte of a readable buffer is the one the snapshot gives. -/
theorem memByte_of_readable {m : Memory} {p : Word} {n i : Nat} (h : Readable m p n) (hi : i < n) :
    memByte m (p.toNat + i) = some (snapshot m (p.toNat + i)) :=
  memByte_of_admits (h.2 i hi)

theorem exec_rd64_of_readable {s : State} (h : Readable s.mem s.ptr 8) :
    exec .rd64 s = .next { s with lo := read64 (snapshot s.mem) s.ptr.toNat } :=
  congrArg Host.Outcome.next (loadCommand_of_readable h)

theorem exec_rd32_of_readable {s : State} (h : Readable s.mem s.ptr 4) :
    exec .rd32 s = .next { s with lo := read32 (snapshot s.mem) s.ptr.toNat } :=
  congrArg Host.Outcome.next (loadCommand_of_readable h)

theorem exec_rdsm_of_readable {s : State} (hlen : 1 ≤ s.len.toNat ∧ s.len.toNat ≤ 3)
    (h : Readable s.mem s.ptr s.len.toNat) :
    exec .rdsm s =
      .next { s with lo := readSmall (snapshot s.mem) s.ptr.toNat s.len.toNat } :=
  (execRdsm_of_legal hlen).trans (congrArg Host.Outcome.next (loadCommand_of_readable h))

theorem readSetSize_rdsm {s : State} (h : 1 ≤ s.len.toNat ∧ s.len.toNat ≤ 3) :
    readSetSize .rdsm s = some s.len.toNat :=
  if_pos h

/-- `read32_le` is zero-extended (R92). -/
theorem read32_highHalf (M : Nat → Byte) (p : Nat) : (read32 M p).extractLsb' 32 32 = 0 := by
  rw [read32_eq_lowHalf_read64]
  ext i hi
  simp

/-- Three bytes put together in one word are its low three bytes, and the rest is 0 (R93). -/
theorem bytes_of_assembled (x y z : Byte) :
    let w : Word := x.setWidth 64 <<< 16 ||| y.setWidth 64 <<< 8 ||| z.setWidth 64
    w.extractLsb' 16 8 = x ∧ w.extractLsb' 8 8 = y ∧ w.extractLsb' 0 8 = z ∧
      w.extractLsb' 24 40 = 0 := by
  refine ⟨?_, ?_, ?_, ?_⟩ <;> refine BitVec.eq_of_getLsbD_eq fun i hi => ?_
  · simp [hi, show 16 + i < 64 by omega, BitVec.getLsbD_of_ge y (16 + i - 8) (by omega),
      BitVec.getLsbD_of_ge z (16 + i) (by omega)]
  · simp [hi, show 8 + i < 64 by omega, show 8 + i < 16 by omega]
  · simp [hi, show i < 64 by omega, show i < 16 by omega]
  · simp [BitVec.getLsbD_of_ge x (24 + i - 16) (by omega),
      BitVec.getLsbD_of_ge y (24 + i - 8) (by omega), BitVec.getLsbD_of_ge z (24 + i) (by omega)]

/-- The middle position of `read_small` is half the length, rounded down (R93). -/
theorem readSmall_bytes (M : Nat → Byte) (p k : Nat) :
    (readSmall M p k).extractLsb' 16 8 = M p ∧ (readSmall M p k).extractLsb' 8 8 = M (p + k / 2) ∧
      (readSmall M p k).extractLsb' 0 8 = M (p + k - 1) ∧ (readSmall M p k).extractLsb' 24 40 = 0 :=
  bytes_of_assembled (M p) (M (p + k / 2)) (M (p + k - 1))

/-- Settles O38: the word of `read64_le`, byte by byte, or the error of the read check. -/
theorem rd64LoadsEightBytes : Obligations.Rd64LoadsEightBytes := by
  refine ⟨rfl, fun s => ⟨fun hr => ⟨_, exec_rd64_of_readable hr, lo_frame _ s, fun k hk => ?_⟩,
    fun e he => exec_of_checkRead_error rfl he⟩⟩
  rw [memByte_of_readable hr hk, read64_byte _ _ hk]

/-- Settles O39: the word of `read32_le`, its four bytes and the zeros above, or the error of the
read check. -/
theorem rd32LoadsFourBytes : Obligations.Rd32LoadsFourBytes := by
  refine ⟨rfl, fun s => ⟨fun hr => ⟨_, exec_rd32_of_readable hr, lo_frame _ s, fun k hk => ?_,
    read32_highHalf _ _⟩, fun e he => exec_of_checkRead_error rfl he⟩⟩
  rw [memByte_of_readable hr hk, read32_byte _ _ (by omega), if_pos hk]

/-- Settles O40: the positions of the three bytes of `read_small` lie in the buffer of 1, 2 or 3
bytes; any other length is refused before the read check. -/
theorem rdsmLoadsThreeBytePositions : Obligations.RdsmLoadsThreeBytePositions := by
  refine ⟨rfl, fun s => ⟨fun hlo hhi hr => ?_, fun hlo hhi e he => ?_, execRdsm_of_illegal⟩⟩
  · obtain ⟨hfirst, hmid, hlast, hrest⟩ :=
      readSmall_bytes (snapshot s.mem) s.ptr.toNat s.len.toNat
    refine ⟨_, exec_rdsm_of_readable ⟨hlo, hhi⟩ hr, lo_frame _ s, ?_, ?_, ?_, hrest⟩
    · rw [hfirst]
      exact memByte_of_readable hr (i := 0) (by omega)
    · rw [hmid]
      exact memByte_of_readable hr (by omega)
    · rw [hlast, Nat.add_sub_assoc hlo]
      exact memByte_of_readable hr (by omega)
  · exact exec_of_checkRead_error (readSetSize_rdsm ⟨hlo, hhi⟩) he

end Sys2Proof.Machine
end

section
/-! The seed conditioning and the finalisation in each form of the hash (42_hash.md R97, R102). -/

namespace Sys2Proof.Machine

section

variable {bld : Build} (s : Secret)

theorem hashSeed_doc (h : bld.hashForm = .doc) (seed : Word) :
    hashSeed bld s seed = seed ^^^ wymix bld (seed ^^^ s.s0) s.s1 := by
  simp only [hashSeed, h]

theorem hashSeed_alt (h : bld.hashForm = .alt) (seed : Word) :
    hashSeed bld s seed = seed ^^^ s.s0 := by
  simp only [hashSeed, h]

theorem hashFinish_doc (h : bld.hashForm = .doc) (n sd a b : Word) :
    hashFinish bld s n sd a b =
      wymix bld ((wymum bld (a ^^^ s.s1) (b ^^^ sd)).1 ^^^ s.s0 ^^^ n)
        ((wymum bld (a ^^^ s.s1) (b ^^^ sd)).2 ^^^ s.s1) := by
  simp only [hashFinish, h]

theorem hashFinish_alt (h : bld.hashForm = .alt) (n sd a b : Word) :
    hashFinish bld s n sd a b = wymix bld (s.s1 ^^^ n) (wymix bld (a ^^^ s.s1) (b ^^^ sd)) := by
  simp only [hashFinish, h]

end

/-- Settles O44: one equation per form for each of the two functions. -/
theorem hashFormsAreAsStated : Obligations.HashFormsAreAsStated := fun _ s n seed sd a b =>
  ⟨fun h => ⟨hashSeed_doc s h seed, hashFinish_doc s h n sd a b⟩,
    fun h => ⟨hashSeed_alt s h seed, hashFinish_alt s h n sd a b⟩⟩

end Sys2Proof.Machine
end

section
/-! HASH as a fold over its bytes (42_hash.md R98 to R105): the words of the buffer are the reads of the
snapshot, a loop is its step iterated a counted number of times, and the iterated step is a fold. -/

namespace Sys2Proof.Machine

/-! ### The words of a buffer -/

@[simp] theorem bufferBytes_length (M : Nat → Byte) (p n : Nat) : (bufferBytes M p n).length = n := by
  simp [bufferBytes]

/-- A part of a buffer is the buffer at the address of the part. -/
theorem take_drop_bufferBytes (M : Nat → Byte) (p : Nat) {n k w : Nat} (h : k + w ≤ n) :
    ((bufferBytes M p n).drop k).take w = bufferBytes M (p + k) w := by
  refine List.ext_getElem (by simp; omega) fun i _ _ => ?_
  simp [bufferBytes, Nat.add_assoc]

theorem wordAt_bufferBytes (M : Nat → Byte) (p : Nat) {n k : Nat} (h : k + 8 ≤ n) :
    wordAt (bufferBytes M p n) k = read64 M (p + k) :=
  congrArg leWord (take_drop_bufferBytes M p h)

theorem halfAt_bufferBytes (M : Nat → Byte) (p : Nat) {n k : Nat} (h : k + 4 ≤ n) :
    halfAt (bufferBytes M p n) k = read32 M (p + k) :=
  congrArg leWord (take_drop_bufferBytes M p h)

/-- Bytes appended, the first on top, are the bytes shifted to their places (R93). -/
theorem setWidth_append_bytes (x y z : Byte) :
    (x ++ y ++ z).setWidth 64 =
      (x.setWidth 64 <<< 16 ||| y.setWidth 64 <<< 8 ||| z.setWidth 64 : Word) := by
  ext i hi
  simp only [BitVec.getElem_setWidth, BitVec.getLsbD_append, BitVec.getElem_or,
    BitVec.getElem_shiftLeft]
  rcases Nat.lt_or_ge i 8 with h | h
  · simp [h, show i < 16 by omega]
  · have hz : z.getLsbD i = false := BitVec.getLsbD_of_ge z i h
    rcases Nat.lt_or_ge i 16 with h' | h'
    · simp [hz, h', Nat.not_lt.2 h, show i - 8 < 8 by omega]
    · have hy : y.getLsbD (i - 8) = false := BitVec.getLsbD_of_ge y _ (by omega)
      simp [hz, hy, Nat.not_lt.2 h, Nat.not_lt.2 h', show ¬ i - 8 < 8 by omega, Nat.sub_sub]

/-! ### Short inputs (R98) -/

/-- From four bytes on, the hash of a short list reads both its ends. -/
theorem hashBytes_of_four_to_sixteen (bld : Build) (bytes : List Byte) (seed : Word) (s : Secret)
    (hlo : 4 ≤ bytes.length) (hhi : bytes.length ≤ 16) :
    hashBytes bld bytes seed s =
      hashFinish bld s (BitVec.ofNat 64 bytes.length) (hashSeed bld s seed)
        (if bytes.length ≤ 8 then halfAt bytes 0 else wordAt bytes 0)
        (if bytes.length ≤ 8 then halfAt bytes (bytes.length - 4)
          else wordAt bytes (bytes.length - 8)) := by
  match bytes with
  | _ :: _ :: _ :: _ :: _ =>
    simp only [hashBytes, if_pos hhi]
    split <;> rfl

theorem shortPair_of_four_le (M : Nat → Byte) (p : Nat) {n : Nat} (h : 4 ≤ n) :
    shortPair M p n =
      if n ≤ 8 then (read32 M p, read32 M (p + n - 4)) else (read64 M p, read64 M (p + n - 8)) := by
  rw [shortPair, if_neg (by omega), if_neg (by omega)]

/-- The pair of a short input: up to three bytes are told apart by their number, four and more are read
at both ends. -/
theorem hashBytes_of_short (bld : Build) (M : Nat → Byte) (p : Nat) {n : Nat} (h : n ≤ 16)
    (seed : Word) (s : Secret) :
    hashBytes bld (bufferBytes M p n) seed s =
      hashFinish bld s (BitVec.ofNat 64 n) (hashSeed bld s seed) (shortPair M p n).1
        (shortPair M p n).2 := by
  rcases Nat.lt_or_ge n 4 with hfew | hmany
  · simp only [hashBytes, bufferBytes_length, if_pos h]
    match n with
    | 0 => rfl
    | 1 | 2 | 3 => simp [bufferBytes, List.range_succ, shortPair, readSmall, setWidth_append_bytes]
  · rw [hashBytes_of_four_to_sixteen _ _ _ _ (by simpa) (by simpa), shortPair_of_four_le M p hmany,
      bufferBytes_length]
    split
    · rw [halfAt_bufferBytes M p (by omega), halfAt_bufferBytes M p (by omega), Nat.add_zero,
        Nat.add_sub_assoc (by omega)]
    · rw [wordAt_bufferBytes M p (by omega), wordAt_bufferBytes M p (by omega), Nat.add_zero,
        Nat.add_sub_assoc (by omega)]

theorem wyhash_eq_hashBytes_of_short (bld : Build) (M : Nat → Byte) (p : Nat) {n : Nat} (h : n ≤ 16)
    (seed : Word) (s : Secret) :
    wyhash bld M p n seed s = hashBytes bld (bufferBytes M p n) seed s := by
  simp only [wyhash, if_pos h, hashBytes_of_short bld M p h]

/-! ### The block loop (R99) -/

theorem blockCount_of_cont {bld : Build} {i : Nat} (h : blockCont bld i = true) :
    blockCount bld i = blockCount bld (i - 48) + 1 := by
  rw [blockCont_iff] at h
  unfold blockCount
  split_ifs at h ⊢ <;> omega

theorem blockCount_of_not_cont {bld : Build} {i : Nat} (h : ¬ blockCont bld i = true) :
    blockCount bld i = 0 := by
  rw [blockCont_iff] at h
  unfold blockCount
  split_ifs at h ⊢ <;> omega

theorem blockCount_le (bld : Build) (n : Nat) : 48 * blockCount bld n ≤ n := by
  unfold blockCount
  split <;> omega

section

variable (bld : Build) (M : Nat → Byte) (s : Secret)

/-- The fuel is enough (log 15), so the block loop takes the blocks counted beforehand. -/
theorem blockLoop_eq_iterate (fuel : Nat) (x : HashLoop) (h : x.i ≤ fuel) :
    blockLoop bld M s fuel x = (blockStep bld M s)^[blockCount bld x.i] x := by
  induction fuel generalizing x with
  | zero =>
    have hle := blockCount_le bld x.i
    rw [show blockCount bld x.i = 0 by omega]
    rfl
  | succ fuel ih =>
    rw [blockLoop]
    split
    case isTrue hc =>
      have := le_of_blockCont hc
      rw [ih _ (by simp only [blockStep]; omega), blockCount_of_cont hc]
      rfl
    case isFalse hc => rw [blockCount_of_not_cont hc]; rfl

/-- The loops' state at offset `k` of the buffer `[p, p + n)`, with the three accumulators `acc`. -/
def loopAt (p n k : Nat) (acc : Word × Word × Word) : HashLoop :=
  { q := p + k, i := n - k, sd := acc.1, see1 := acc.2.1, see2 := acc.2.2 }

theorem foldBlocks_succ (bytes : List Byte) (sd : Word) (c : Nat) :
    foldBlocks bld s bytes sd (c + 1) =
      (wymix bld (wordAt bytes (48 * c) ^^^ s.s1)
        (wordAt bytes (48 * c + 8) ^^^ (foldBlocks bld s bytes sd c).1),
       wymix bld (wordAt bytes (48 * c + 16) ^^^ s.s2)
        (wordAt bytes (48 * c + 24) ^^^ (foldBlocks bld s bytes sd c).2.1),
       wymix bld (wordAt bytes (48 * c + 32) ^^^ s.s3)
        (wordAt bytes (48 * c + 40) ^^^ (foldBlocks bld s bytes sd c).2.2)) := by
  simp only [foldBlocks, List.range_succ, List.foldl_append, List.foldl_cons, List.foldl_nil]

theorem iterate_blockStep (p n : Nat) (sd : Word) {c : Nat} (h : 48 * c ≤ n) :
    (blockStep bld M s)^[c] (loopAt p n 0 (sd, sd, sd)) =
      loopAt p n (48 * c) (foldBlocks bld s (bufferBytes M p n) sd c) := by
  induction c with
  | zero => rfl
  | succ c ih =>
    rw [Function.iterate_succ_apply', ih (by omega), foldBlocks_succ]
    simp only [wordAt_bufferBytes, show 48 * c + 8 ≤ n by omega, show 48 * c + 8 + 8 ≤ n by omega,
      show 48 * c + 16 + 8 ≤ n by omega, show 48 * c + 24 + 8 ≤ n by omega,
      show 48 * c + 32 + 8 ≤ n by omega, show 48 * c + 40 + 8 ≤ n by omega]
    simp only [blockStep, loopAt, HashLoop.mk.injEq, Nat.add_assoc, and_true]
    omega

/-- The block phase leaves the three accumulators of the counted blocks merged into one. If it takes
no block there are three equal ones, and merging them changes nothing. -/
theorem blockPhase_eq_foldBlocks (p n : Nat) (sd : Word) :
    let acc := foldBlocks bld s (bufferBytes M p n) sd (blockCount bld n)
    blockPhase bld M s p n sd =
      loopAt p n (48 * blockCount bld n) (acc.1 ^^^ acc.2.1 ^^^ acc.2.2, acc.2) := by
  intro acc
  unfold blockPhase
  split
  case isTrue hc =>
    have hloop := (blockLoop_eq_iterate bld M s n (loopAt p n 0 (sd, sd, sd)) (Nat.sub_le n 0)).trans
      (iterate_blockStep bld M s p n sd (blockCount_le bld n))
    exact congrArg (fun x : HashLoop => { x with sd := x.sd ^^^ x.see1 ^^^ x.see2 }) hloop
  case isFalse hc =>
    simp [acc, blockCount_of_not_cont hc, foldBlocks, loopAt]

/-! ### The chunk loop (R100) -/

/-- The fuel is enough (log 15), so the chunk loop takes the chunks counted beforehand. -/
theorem chunkLoop_eq_iterate (fuel : Nat) (x : HashLoop) (h : x.i ≤ fuel) :
    chunkLoop bld M s fuel x = (chunkStep bld M s)^[(x.i - 1) / 16] x := by
  induction fuel generalizing x with
  | zero =>
    rw [show (x.i - 1) / 16 = 0 by omega]
    rfl
  | succ fuel ih =>
    rw [chunkLoop]
    split
    case isTrue hc =>
      rw [ih _ (by simp only [chunkStep]; omega),
        show (x.i - 1) / 16 = (x.i - 16 - 1) / 16 + 1 by omega]
      rfl
    case isFalse hc =>
      rw [show (x.i - 1) / 16 = 0 by omega]
      rfl

theorem foldChunks_succ (bytes : List Byte) (k : Nat) (sd : Word) (c : Nat) :
    foldChunks bld s bytes k sd (c + 1) =
      wymix bld (wordAt bytes (k + 16 * c) ^^^ s.s1)
        (wordAt bytes (k + 16 * c + 8) ^^^ foldChunks bld s bytes k sd c) := by
  simp only [foldChunks, List.range_succ, List.foldl_append, List.foldl_cons, List.foldl_nil]

theorem iterate_chunkStep (p n k : Nat) (acc : Word × Word × Word) {c : Nat} (h : k + 16 * c ≤ n) :
    (chunkStep bld M s)^[c] (loopAt p n k acc) =
      loopAt p n (k + 16 * c) (foldChunks bld s (bufferBytes M p n) k acc.1 c, acc.2) := by
  induction c with
  | zero => rfl
  | succ c ih =>
    rw [Function.iterate_succ_apply', ih (by omega), foldChunks_succ,
      wordAt_bufferBytes M p (by omega), wordAt_bufferBytes M p (by omega)]
    simp only [chunkStep, loopAt, HashLoop.mk.injEq, Nat.add_assoc, and_true]
    omega

/-! ### Long inputs (R99 to R101) -/

/-- The last 16 bytes of the buffer do not depend on where the loops stopped. -/
theorem longPair_loopAt (p : Nat) {n k : Nat} (hk : k ≤ n) (h : 16 ≤ n) (acc : Word × Word × Word) :
    longPair M (loopAt p n k acc) =
      (wordAt (bufferBytes M p n) (n - 16), wordAt (bufferBytes M p n) (n - 8)) := by
  rw [wordAt_bufferBytes M p (by omega), wordAt_bufferBytes M p (by omega)]
  simp only [longPair, loopAt]
  rw [show p + k + (n - k) = p + n by omega, Nat.add_sub_assoc h, Nat.add_sub_assoc (by omega)]

theorem longLoops_eq_foldChunks (p n : Nat) (sd : Word) :
    let bytes := bufferBytes M p n
    let k := 48 * blockCount bld n
    let acc := foldBlocks bld s bytes sd (blockCount bld n)
    longLoops bld M s p n sd =
      loopAt p n (k + 16 * ((n - k - 1) / 16))
        (foldChunks bld s bytes k (acc.1 ^^^ acc.2.1 ^^^ acc.2.2) ((n - k - 1) / 16), acc.2) := by
  intro bytes k acc
  have hk : k ≤ n := blockCount_le bld n
  simp only [longLoops, blockPhase_eq_foldBlocks]
  rw [chunkLoop_eq_iterate bld M s _ _ (le_refl _)]
  exact iterate_chunkStep bld M s p n k _ (by simp only [loopAt]; omega)

theorem wyhash_eq_hashBytes_of_long (p : Nat) {n : Nat} (h : 16 < n) (seed : Word) :
    wyhash bld M p n seed s = hashBytes bld (bufferBytes M p n) seed s := by
  have hk := blockCount_le bld n
  simp only [wyhash, hashBytes, bufferBytes_length, if_neg (Nat.not_le.2 h),
    longLoops_eq_foldChunks]
  rw [longPair_loopAt M p (by omega) h.le]
  rfl

end

/-! ### HASH (R103, R104) -/

/-- R105: the hash is a function of the bytes of the buffer, wherever it lies. -/
theorem wyhash_eq_hashBytes (bld : Build) (M : Nat → Byte) (p n : Nat) (seed : Word) (s : Secret) :
    wyhash bld M p n seed s = hashBytes bld (bufferBytes M p n) seed s := by
  rcases Nat.lt_or_ge 16 n with hlong | hshort
  · exact wyhash_eq_hashBytes_of_long bld M s p hlong seed
  · exact wyhash_eq_hashBytes_of_short bld M p hshort seed s

theorem exec_hash_of_readable {s : State} (h : Readable s.mem s.ptr s.len.toNat) :
    exec .hash s = .next { s with
      lo := hashBytes s.build (bufferBytes (snapshot s.mem) s.ptr.toNat s.len.toNat) s.seed
        s.secret } := by
  rw [← wyhash_eq_hashBytes]
  exact congrArg Host.Outcome.next (loadCommand_of_readable h)

/-- The bytes memory gives at every address of a buffer are the ones the snapshot gives. -/
theorem bufferBytes_snapshot {m : Memory} {p n : Nat} {bytes : List Byte} (hlen : bytes.length = n)
    (h : ∀ k, k < n → memByte m (p + k) = bytes[k]?) : bufferBytes (snapshot m) p n = bytes := by
  refine List.ext_getElem (by simp [hlen]) fun k _ hk => ?_
  have hbyte := h k (hlen ▸ hk)
  rw [List.getElem?_eq_getElem hk] at hbyte
  simp [bufferBytes, snapshot_eq hbyte]

theorem readable_of_bytes {m : Memory} {p : Word} {n : Nat} {bytes : List Byte}
    (hlen : bytes.length = n) (hfits : p.toNat + n ≤ 2 ^ 64)
    (h : ∀ k, k < n → memByte m (p.toNat + k) = bytes[k]?) : Readable m p n :=
  ⟨hfits, fun k hk => by rw [memAdmits, h k hk]; simp [hlen, hk]⟩

/-- Settles O42: a buffer with these bytes is readable, and `HASH` of it is the fold over them. -/
theorem hashIsTheFoldOverItsBytes : Obligations.HashIsTheFoldOverItsBytes := by
  intro s bytes hlen hfits h
  rw [exec_hash_of_readable (readable_of_bytes hlen hfits h), bufferBytes_snapshot hlen h]

end Sys2Proof.Machine
end

section
/-! The default secret (43_secret.md R106): the literals, and what `DEFSEC` writes. -/

namespace Sys2Proof.Machine

/-- `DEFSEC` writes the secret registers and no other field (R106). -/
theorem exec_defsec (s : State) : exec .defsec s = .next (writeSecret defaultSecret s) := rfl

/-- The default secret, written out as the literals of R106. -/
theorem writeSecret_defaultSecret (s : State) :
    writeSecret defaultSecret s = { s with
      sec0 := 0xa0761d6478bd642f, sec1 := 0xe7037ed1a0b428db
      sec2 := 0x8ebc6af09c88c6e3, sec3 := 0x589965cc75374cc3 } := rfl

/-- Settles O48: the word is the opcode of a command of format N, and the state after `DEFSEC` is the
one with the default secret written. -/
theorem defsecLoadsTheDefaultSecret : Obligations.DefsecLoadsTheDefaultSecret :=
  ⟨encode_of_formatN .defsec (by decide), fun s => by
    rw [exec_defsec, writeSecret_defaultSecret]⟩

end Sys2Proof.Machine
end

section
/-! The wyrand PRNG (44_rand.md R112, R114): what one step of it is, and what `RAND` writes. -/

namespace Sys2Proof.Machine

/-- A step adds the increment (R112). -/
theorem wyrandNext_eq_add (t : Word) : wyrandNext t = t + 0x2d358dccaa6c78a5 := rfl

/-- The output of an updated state is its mix with itself, one side xored with `P_RAND_XOR` (R112). -/
theorem wyrandOutput_eq_wymix (bld : Build) (t : Word) :
    wyrandOutput bld t = wymix bld t (t ^^^ 0x8bb84b93962eacc9) := rfl

/-- `RAND` writes the updated state to `RNG` and the output of that state to `LO` (R114). -/
theorem exec_rand (s : State) :
    exec .rand s = .next { s with
      rng := wyrandNext s.rng, lo := wyrandOutput s.build (wyrandNext s.rng) } := rfl

/-- Writing `RNG` and `LO` only. -/
theorem rng_lo_frame (t l : Word) (s : State) :
    frame [.rng, .lo] s { s with rng := t, lo := l } := by
  refine ⟨fun r hr => ?_, by simp [sameAround]⟩
  cases r <;> simp_all [readReg]

/-- Settles O53: `RAND` writes one wyrand step to `RNG` and `LO`, and the output is the mix of the
updated state. -/
theorem randStepsAndReturnsTheMix : Obligations.RandStepsAndReturnsTheMix :=
  ⟨encode_of_formatN .rand (by decide), fun s =>
    ⟨_, exec_rand s, rng_lo_frame _ _ s, wyrandNext_eq_add s.rng,
      wyrandOutput_eq_wymix s.build (wyrandNext s.rng)⟩⟩

end Sys2Proof.Machine
end

section
/-! Binary64 (00_scope.md R16): the value of a pattern, what the finite values look like, and the
pattern of an exponent field and a significand. -/

namespace Sys2Proof.Machine

/-- The unit of the last place of the patterns with exponent field `e ≥ 1`. -/
def ulp (e : ℕ) : ℚ := 2 ^ e / 2 ^ 1075

theorem ulp_pos (e : ℕ) : 0 < ulp e := div_pos (pow_pos two_pos e) (pow_pos two_pos 1075)

theorem ulp_add (e k : ℕ) : ulp (e + k) = 2 ^ k * ulp e := by
  rw [ulp, ulp, add_comm, pow_add, mul_div_assoc]

theorem ulp_one : ulp 1 = 1 / 2 ^ 1074 := by
  rw [ulp, pow_one, pow_succ, div_mul_cancel_right₀ two_ne_zero, one_div]

theorem ulp_1023 : ulp 1023 = 1 / 2 ^ 52 := by
  rw [ulp, pow_add 2 1023 52, div_mul_cancel_left₀ (pow_ne_zero _ two_ne_zero), one_div]

/-- The exponent field of a pattern. -/
def exponentField (v : Word) : ℕ := (v.extractLsb' 52 11).toNat

/-- The integer a pattern counts in units of its last place: the implicit bit stands before the
fraction unless the exponent field is 0. -/
def significand (v : Word) : ℕ :=
  (if exponentField v = 0 then 0 else 2 ^ 52) + (v.extractLsb' 0 52).toNat

/-- The sign of a pattern. -/
def signFactor (v : Word) : ℤ := if v.getLsbD 63 then -1 else 1

theorem significand_of_normal {v : Word} (h : 0 < exponentField v) :
    significand v = 2 ^ 52 + (v.extractLsb' 0 52).toNat := by
  rw [significand, if_neg h.ne']

theorem significand_lt (v : Word) : significand v < 2 ^ 53 := by
  have hf := (v.extractLsb' 0 52).isLt
  unfold significand
  split_ifs <;> omega

theorem abs_signFactor (v : Word) : |signFactor v| = 1 := by
  unfold signFactor
  split_ifs <;> rfl

/-- The value of a pattern in units of its last place; subnormal patterns count in the unit of
exponent field 1. -/
theorem f64_eq (v : Word) :
    f64 v = if exponentField v = 2047 then none
      else some (signFactor v * significand v * ulp (max 1 (exponentField v))) := by
  have hsign : (if v.getLsbD 63 then (-1 : ℚ) else 1) = signFactor v := by
    unfold signFactor
    split_ifs <;> simp
  have hexp : (v.extractLsb' 52 11).toNat = exponentField v := rfl
  simp only [f64, hsign, hexp, significand]
  by_cases h0 : exponentField v = 0
  · simp only [h0, if_true]
    rw [zero_add, max_eq_left zero_le_one, ulp_one, mul_one_div]
  · simp only [if_neg h0]
    rw [max_eq_right (Nat.one_le_iff_ne_zero.mpr h0), ulp, ← mul_div_assoc, Nat.cast_add,
      Nat.cast_pow, Nat.cast_ofNat]

/-- A finite pattern denotes a multiple, by fewer than 2^53, of the unit of some exponent field. -/
theorem exists_multiple_of_f64 {w : Word} {y : ℚ} (h : f64 w = some y) :
    ∃ (z : ℤ) (e : ℕ), y = z * ulp e ∧ |z| < 2 ^ 53 := by
  rw [f64_eq] at h
  split at h
  · cases h
  · refine ⟨signFactor w * significand w, max 1 (exponentField w), ?_, ?_⟩
    · rw [← Option.some.inj h]
      push_cast
      rfl
    · rw [abs_mul, abs_signFactor, one_mul, Nat.abs_cast]
      exact_mod_cast significand_lt w

/-- The value of a positive normal pattern. -/
theorem f64_of_normal {v : Word} (hsign : v.getLsbD 63 = false) (hpos : 0 < exponentField v)
    (hfin : exponentField v < 2047) : f64 v = some (significand v * ulp (exponentField v)) := by
  have hfactor : signFactor v = 1 := if_neg (by rw [hsign]; decide)
  simp [f64_eq, hfin.ne, hfactor, max_eq_right (Nat.succ_le_of_lt hpos)]

/-- The pattern with exponent field `e` and significand `q`; the significand 2^53 carries into the
exponent field and denotes the same multiple of the unit. -/
def pattern (e q : ℕ) : Word := BitVec.ofNat 64 (e * 2 ^ 52 + (q - 2 ^ 52))

section
variable {e q : ℕ} (hpos : 0 < e) (hfin : e + 1 < 2047) (hlo : 2 ^ 52 ≤ q) (hhi : q ≤ 2 ^ 53)
include hfin hhi

theorem pattern_toNat : (pattern e q).toNat = e * 2 ^ 52 + (q - 2 ^ 52) := by
  rw [pattern, BitVec.toNat_ofNat, Nat.mod_eq_of_lt (by omega)]

theorem pattern_sign : (pattern e q).getLsbD 63 = false := by
  rw [← BitVec.testBit_toNat, pattern_toNat hfin hhi]
  exact Nat.testBit_lt_two_pow (by omega)

include hlo in
theorem pattern_lsb : (pattern e q).getLsbD 0 = decide (q % 2 = 1) := by
  rw [← BitVec.testBit_toNat, pattern_toNat hfin hhi, Nat.testBit_zero, decide_eq_decide]
  omega

theorem exponentField_pattern : exponentField (pattern e q) = e + (q - 2 ^ 52) / 2 ^ 52 := by
  rw [exponentField, BitVec.extractLsb'_toNat, pattern_toNat hfin hhi, Nat.shiftRight_eq_div_pow]
  omega

include hpos in
theorem significand_pattern : significand (pattern e q) = 2 ^ 52 + (q - 2 ^ 52) % 2 ^ 52 := by
  have hnormal : 0 < exponentField (pattern e q) := by
    rw [exponentField_pattern hfin hhi]
    omega
  rw [significand_of_normal hnormal, BitVec.extractLsb'_toNat, pattern_toNat hfin hhi,
    Nat.shiftRight_zero]
  omega

include hpos hlo in
theorem f64_pattern : f64 (pattern e q) = some (q * ulp e) := by
  have hexp := exponentField_pattern hfin hhi
  rw [f64_of_normal (pattern_sign hfin hhi) (by omega) (by omega), hexp,
    significand_pattern hpos hfin hhi]
  rcases hhi.lt_or_eq with h | rfl
  · have hcarry : (q - 2 ^ 52) / 2 ^ 52 = 0 := by omega
    have hq : 2 ^ 52 + (q - 2 ^ 52) % 2 ^ 52 = q := by omega
    rw [hcarry, hq, add_zero]
  · rw [ulp_add]
    norm_num
    ring

end

/-- Flipping the sign bit negates the value. -/
theorem f64_xor_signBit (v : Word) : f64 (v ^^^ signBit) = (f64 v).map (- ·) := by
  have hexp : exponentField (v ^^^ signBit) = exponentField v := by
    simp [exponentField, BitVec.extractLsb'_xor, signBit]
  have hsig : significand (v ^^^ signBit) = significand v := by
    rw [significand, hexp]
    simp [significand, BitVec.extractLsb'_xor, signBit]
  have hsign : signFactor (v ^^^ signBit) = -signFactor v := by
    have hflip : (v ^^^ signBit).getLsbD 63 = !v.getLsbD 63 := by simp [signBit]
    unfold signFactor
    rw [hflip]
    cases v.getLsbD 63 <;> rfl
  simp only [f64_eq, hexp, hsig, hsign]
  split_ifs
  · rfl
  · simp

theorem f64_zero : f64 0 = some 0 := by simp [f64]

end Sys2Proof.Machine
end

section
/-! `U01` (45_distrib.md R115, R117): its pattern, the value of it, and what the command writes. -/

namespace Sys2Proof.Machine

/-- A command that writes `v` to `LO` only: its next state, by its frame and its `LO`. -/
theorem exists_next_of_lo_written {i : Instr} {s : State} {v : Word}
    (h : exec i s = .next { s with lo := v }) :
    ∃ t, exec i s = .next t ∧ frame [.lo] s t ∧ t.lo = v :=
  ⟨_, h, lo_frame v s, rfl⟩

/-- The significand `U01` shifts its 52 bits up to: the leading bit is bit 52. -/
theorem shifted_to_log2_bounds {m : ℕ} (h0 : m ≠ 0) (hm : m < 2 ^ 52) :
    2 ^ 52 ≤ m * 2 ^ (52 - m.log2) ∧ m * 2 ^ (52 - m.log2) < 2 ^ 53 := by
  have hlog : m.log2 < 52 := (Nat.log2_lt h0).mpr hm
  have hpow : 0 < 2 ^ (52 - m.log2) := Nat.two_pow_pos _
  constructor
  · calc 2 ^ 52 = 2 ^ m.log2 * 2 ^ (52 - m.log2) := by rw [← pow_add, Nat.add_sub_cancel' hlog.le]
      _ ≤ m * 2 ^ (52 - m.log2) := Nat.mul_le_mul_right _ (Nat.log2_self_le h0)
  · calc m * 2 ^ (52 - m.log2) < 2 ^ (m.log2 + 1) * 2 ^ (52 - m.log2) :=
          Nat.mul_lt_mul_of_pos_right Nat.lt_log2_self hpow
      _ = 2 ^ 53 := by rw [← pow_add, show m.log2 + 1 + (52 - m.log2) = 53 by omega]

/-- `U01` keeps the upper 52 bits of its operand. -/
theorem shifted_lt (x : Word) : (x >>> 12).toNat < 2 ^ 52 := by
  rw [BitVec.toNat_ushiftRight, Nat.shiftRight_eq_div_pow]
  omega

theorem shifted_log2_lt {x : Word} (h : (x >>> 12).toNat ≠ 0) : (x >>> 12).toNat.log2 < 52 :=
  (Nat.log2_lt h).mpr (shifted_lt x)

theorem wy2u01_zero {x : Word} (h : (x >>> 12).toNat = 0) : wy2u01 x = 0 := by
  rw [wy2u01, if_pos h]

theorem wy2u01_eq_pattern {x : Word} (h : (x >>> 12).toNat ≠ 0) :
    wy2u01 x = pattern (971 + (x >>> 12).toNat.log2)
      ((x >>> 12).toNat * 2 ^ (52 - (x >>> 12).toNat.log2)) := by
  have hm := shifted_lt x
  obtain ⟨hlo, hhi⟩ := shifted_to_log2_bounds h hm
  rw [wy2u01, if_neg h, pattern]
  generalize (x >>> 12).toNat = m at *
  have hmod : m * 2 ^ (52 - m.log2) % 2 ^ 52 = m * 2 ^ (52 - m.log2) - 2 ^ 52 := by omega
  have hexp : 1023 + m.log2 - 52 = 971 + m.log2 := by omega
  dsimp only
  rw [Nat.and_two_pow_sub_one_eq_mod, Nat.shiftLeft_eq m,
    ← Nat.shiftLeft_add_eq_or_of_lt (Nat.mod_lt _ (Nat.two_pow_pos 52)), Nat.shiftLeft_eq,
    hmod, hexp]

theorem wy2u01_sign (x : Word) : (wy2u01 x).getLsbD 63 = false := by
  by_cases h : (x >>> 12).toNat = 0
  · rw [wy2u01_zero h]
    rfl
  · rw [wy2u01_eq_pattern h]
    have hlog := shifted_log2_lt h
    exact pattern_sign (by omega) (shifted_to_log2_bounds h (shifted_lt x)).2.le

/-- The pattern denotes the shifted word in units of 2^−52. -/
theorem f64_wy2u01 (x : Word) : f64 (wy2u01 x) = some (((x >>> 12).toNat : ℚ) / 2 ^ 52) := by
  by_cases h : (x >>> 12).toNat = 0
  · rw [wy2u01_zero h, h, Nat.cast_zero, zero_div]
    exact f64_zero
  · have hlog := shifted_log2_lt h
    obtain ⟨hlo, hhi⟩ := shifted_to_log2_bounds h (shifted_lt x)
    rw [wy2u01_eq_pattern h, f64_pattern (by omega) (by omega) hlo hhi.le, Nat.cast_mul, mul_assoc]
    have hexp : 971 + (x >>> 12).toNat.log2 + (52 - (x >>> 12).toNat.log2) = 1023 := by omega
    rw [Nat.cast_pow, Nat.cast_ofNat, ← ulp_add, hexp, ulp_1023, mul_one_div]

/-- `U01` writes the result of `wy2u01` to `LO`, and nothing else (R117). -/
theorem exec_u01 (s : State) :
    ∃ t, exec .u01 s = .next t ∧ frame [.lo] s t ∧ t.lo = wy2u01 s.a :=
  exists_next_of_lo_written rfl

/-- Settles O55: the pattern denotes the shifted word over 2^52, and that word is below 2^52. -/
theorem unitDoubleIsExact : Obligations.UnitDoubleIsExact := by
  refine ⟨encode_of_formatN .u01 (by decide), fun s => ?_⟩
  obtain ⟨t, hexec, hframe, hlo⟩ := exec_u01 s
  have hlt : ((s.a >>> 12).toNat : ℚ) < 2 ^ 52 := by exact_mod_cast shifted_lt s.a
  refine ⟨t, hexec, hframe, hlo ▸ f64_wy2u01 s.a, by positivity, ?_, hlo ▸ wy2u01_sign s.a⟩
  exact (div_lt_one (by positivity)).mpr hlt

end Sys2Proof.Machine
end

section
/-! Rounding to nearest, ties to even (00_scope.md R16): every finite value against the multiples of
one unit, and `roundShift`, the rounding step of `GAU` (45_distrib.md R116). -/

namespace Sys2Proof.Machine

theorem roundsTo_zero : RoundsTo 0 0 :=
  ⟨0, f64_zero, fun _ _ _ => by simp⟩

/-- Rounding commutes with negation. -/
theorem RoundsTo.neg {r : ℚ} {v : Word} (h : RoundsTo r v) : RoundsTo (-r) (v ^^^ signBit) := by
  obtain ⟨x, hx, hnear⟩ := h
  refine ⟨-x, by rw [f64_xor_signBit, hx]; rfl, fun w y hw => ?_⟩
  have hflip : f64 (w ^^^ signBit) = some (-y) := by rw [f64_xor_signBit, hw]; rfl
  have hdist (a : ℚ) : |-a - r| = |a - -r| := by rw [← abs_neg]; congr 1; ring
  obtain ⟨hle, htie⟩ := hnear _ _ hflip
  have hx' : |-x - -r| = |x - r| := by rw [← abs_neg]; congr 1; ring
  rw [hdist] at hle htie
  refine ⟨hx' ▸ hle, fun heq hne => ?_⟩
  have hlsb := htie (hx' ▸ heq) (fun h => hne (by rw [← h, neg_neg]))
  simpa [signBit] using hlsb

/-- To a number of at least 2^52 units, some integer multiple of the unit is as near as a given finite
value: the value itself, or 2^52 units when the value lies below. -/
theorem exists_nearer_multiple {w : Word} {y r : ℚ} (hw : f64 w = some y) {e : ℕ}
    (hr : 2 ^ 52 * ulp e ≤ r) :
    ∃ n : ℤ, |n * ulp e - r| ≤ |y - r| ∧ (|n * ulp e - r| = |y - r| → y = n * ulp e) := by
  obtain ⟨z, e', rfl, hz⟩ := exists_multiple_of_f64 hw
  rcases le_or_gt e e' with he | he
  · obtain ⟨k, rfl⟩ := Nat.exists_eq_add_of_le he
    have hmul : z * ulp (e + k) = (z * 2 ^ k : ℤ) * ulp e := by
      rw [ulp_add]
      push_cast
      ring
    exact ⟨z * 2 ^ k, by rw [hmul], fun _ => hmul⟩
  · obtain ⟨k, rfl⟩ := Nat.exists_eq_add_of_lt he
    have hbelow : z * ulp e' < 2 ^ 52 * ulp (e' + k + 1) := by
      have hz' : (z : ℚ) < 2 ^ 52 * 2 ^ (k + 1) := by
        have hpow : (2 : ℤ) ^ 53 ≤ 2 ^ 52 * 2 ^ (k + 1) := by
          rw [← pow_add]
          exact pow_le_pow_right₀ one_le_two (by omega)
        exact_mod_cast (abs_lt.mp hz).2.trans_le hpow
      rw [add_assoc, ulp_add, ← mul_assoc]
      exact mul_lt_mul_of_pos_right hz' (ulp_pos e')
    have hcloser : |2 ^ 52 * ulp (e' + k + 1) - r| < |z * ulp e' - r| := by
      rw [abs_of_nonpos (by linarith), abs_of_neg (by linarith)]
      linarith
    refine ⟨2 ^ 52, ?_⟩
    push_cast
    exact ⟨hcloser.le, fun h => absurd h hcloser.ne⟩

/-- A pattern is `r` rounded when its significand is the nearest integer to `r` in units, ties to
even. -/
theorem roundsTo_pattern {e q : ℕ} {r : ℚ} (hpos : 0 < e) (hfin : e + 1 < 2047) (hlo : 2 ^ 52 ≤ q)
    (hhi : q ≤ 2 ^ 53) (hr : 2 ^ 52 * ulp e ≤ r)
    (hnear : ∀ n : ℤ, |q * ulp e - r| ≤ |n * ulp e - r| ∧
      (|q * ulp e - r| = |n * ulp e - r| → n = q ∨ q % 2 = 0)) :
    RoundsTo r (pattern e q) := by
  refine ⟨_, f64_pattern hpos hfin hlo hhi, fun w y hw => ?_⟩
  obtain ⟨n, hle, heq⟩ := exists_nearer_multiple hw hr
  obtain ⟨hqle, htie⟩ := hnear n
  refine ⟨hqle.trans hle, fun h hne => ?_⟩
  rcases htie (hqle.antisymm (h ▸ hle)) with rfl | heven
  · exact absurd (heq h) hne
  · rw [pattern_lsb hfin hlo hhi]
    simp [heven]

/-- How far a multiple `n * d` lies from `m`: `t` plus the distance to the multiple of `d` next to
`m` on its side. -/
theorem distance_to_multiple (m : ℕ) {d : ℕ} (hd : 0 < d) (n : ℤ) :
    ∃ t : ℤ, 0 ≤ t ∧
      (|n * d - m| = t + (m % d : ℕ) ∧ (t = 0 → n = (m / d : ℕ)) ∨
       |n * d - m| = t + (d - (m % d : ℕ)) ∧ (t = 0 → n = (m / d : ℕ) + 1)) := by
  have hm : (m : ℤ) = (m / d : ℕ) * d + (m % d : ℕ) := by exact_mod_cast (Nat.div_add_mod' m d).symm
  have hr : m % d < d := Nat.mod_lt m hd
  generalize m / d = q at *
  generalize m % d = r at *
  have hd' : (d : ℤ) ≠ 0 := by omega
  rcases le_or_gt n q with hn | hn
  · have ht : 0 ≤ (q - n) * (d : ℤ) := mul_nonneg (by omega) (by omega)
    refine ⟨(q - n) * d, ht, .inl ⟨?_, fun h => ?_⟩⟩
    · rw [hm, abs_of_nonpos (by linarith)]
      ring
    · have := (mul_eq_zero.mp h).resolve_right hd'
      omega
  · have ht : 0 ≤ (n - q - 1) * (d : ℤ) := mul_nonneg (by omega) (by omega)
    refine ⟨(n - q - 1) * d, ht, .inr ⟨?_, fun h => ?_⟩⟩
    · rw [hm, abs_of_nonneg (by linarith)]
      ring
    · have := (mul_eq_zero.mp h).resolve_right hd'
      omega

/-- `roundShift m sh` is a nearest integer to `m / 2^sh`, and the even one of two. -/
theorem roundShift_nearest (m sh : ℕ) (n : ℤ) :
    |(roundShift m sh : ℤ) * (2 ^ sh : ℕ) - m| ≤ |n * (2 ^ sh : ℕ) - m| ∧
    (|(roundShift m sh : ℤ) * (2 ^ sh : ℕ) - m| = |n * (2 ^ sh : ℕ) - m| →
      n = roundShift m sh ∨ roundShift m sh % 2 = 0) := by
  have hd : 0 < 2 ^ sh := Nat.two_pow_pos sh
  obtain ⟨t, ht, hdist⟩ := distance_to_multiple m hd n
  have hm : (m : ℤ) = (m / 2 ^ sh : ℕ) * (2 ^ sh : ℕ) + (m % 2 ^ sh : ℕ) := by
    exact_mod_cast (Nat.div_add_mod' m (2 ^ sh)).symm
  have hr : m % 2 ^ sh < 2 ^ sh := Nat.mod_lt m hd
  unfold roundShift
  simp only [Nat.shiftRight_eq_div_pow]
  split_ifs with hup
  · have hself : |((m / 2 ^ sh + 1 : ℕ) : ℤ) * (2 ^ sh : ℕ) - m| =
        (2 ^ sh : ℕ) - (m % 2 ^ sh : ℕ) := by
      rw [Nat.cast_add_one, add_mul, one_mul, abs_of_nonneg (by omega)]
      omega
    rw [hself]
    omega
  · have hself : |((m / 2 ^ sh : ℕ) : ℤ) * (2 ^ sh : ℕ) - m| = (m % 2 ^ sh : ℕ) := by
      rw [abs_of_nonpos (by omega)]
      omega
    rw [hself]
    omega

/-- Shifted down to 53 bits, a number of at least 53 bits has its leading bit in bit 52. -/
theorem div_of_log2_bounds {m : ℕ} (hm : 2 ^ 52 ≤ m) :
    2 ^ 52 ≤ m / 2 ^ (m.log2 - 52) ∧ m / 2 ^ (m.log2 - 52) < 2 ^ 53 := by
  have h0 : m ≠ 0 := by omega
  have hlog : 52 ≤ m.log2 := (Nat.le_log2 h0).mpr hm
  constructor
  · rw [Nat.le_div_iff_mul_le (Nat.two_pow_pos _), ← pow_add, Nat.add_sub_cancel' hlog]
    exact Nat.log2_self_le h0
  · rw [Nat.div_lt_iff_lt_mul (Nat.two_pow_pos _), ← pow_add,
      show 53 + (m.log2 - 52) = m.log2 + 1 by omega]
    exact Nat.lt_log2_self

theorem roundShift_bounds {m : ℕ} (hm : 2 ^ 52 ≤ m) :
    2 ^ 52 ≤ roundShift m (m.log2 - 52) ∧ roundShift m (m.log2 - 52) ≤ 2 ^ 53 := by
  obtain ⟨hlo, hhi⟩ := div_of_log2_bounds hm
  unfold roundShift
  simp only [Nat.shiftRight_eq_div_pow]
  split_ifs <;> omega

/-- A number of at least 2^52 units, shifted down to 53 bits with `roundShift`, gives the pattern it
rounds to, while the exponent field has room. -/
theorem roundsTo_roundShift {m e : ℕ} (hm : 2 ^ 52 ≤ m) (hpos : 0 < e)
    (hfin : e + (m.log2 - 52) + 1 < 2047) :
    RoundsTo (m * ulp e) (pattern (e + (m.log2 - 52)) (roundShift m (m.log2 - 52))) := by
  obtain ⟨hlo, hhi⟩ := roundShift_bounds hm
  have hge : 2 ^ 52 * 2 ^ (m.log2 - 52) ≤ m :=
    (Nat.le_div_iff_mul_le (Nat.two_pow_pos _)).mp (div_of_log2_bounds hm).1
  have hnear := roundShift_nearest m (m.log2 - 52)
  generalize m.log2 - 52 = sh at *
  have hdist (n : ℤ) : |n * ulp (e + sh) - m * ulp e| = (|n * (2 ^ sh : ℕ) - m| : ℤ) * ulp e := by
    rw [ulp_add, ← mul_assoc, ← sub_mul, abs_mul, abs_of_pos (ulp_pos e)]
    push_cast
    rfl
  refine roundsTo_pattern (by omega) hfin hlo hhi ?_ fun n => ?_
  · rw [ulp_add, ← mul_assoc]
    exact mul_le_mul_of_nonneg_right (by exact_mod_cast hge) (ulp_pos e).le
  · obtain ⟨hle, htie⟩ := hnear n
    rw [hdist n, ← Int.cast_natCast (roundShift m sh), hdist]
    refine ⟨mul_le_mul_of_nonneg_right (by exact_mod_cast hle) (ulp_pos e).le, fun h => htie ?_⟩
    exact_mod_cast mul_right_cancel₀ (ulp_pos e).ne' h

end Sys2Proof.Machine
end

section
/-! `GAU` (45_distrib.md R116, R118): the popcount, the scaled patterns, and what the command
writes. -/

namespace Sys2Proof.Machine

theorem sum_map_toNat_eq_countP (p : ℕ → Bool) (l : List ℕ) :
    (l.map fun i => (p i).toNat).sum = l.countP p := by
  induction l with
  | nil => rfl
  | cons i l ih =>
    rw [List.map_cons, List.sum_cons, ih]
    cases h : p i <;> simp [h, add_comm]

theorem popcountByte_eq_countP (v : Byte) :
    popcountByte v = (List.range 8).countP fun i => v.getLsbD i :=
  sum_map_toNat_eq_countP _ _

/-- The bit positions of a word, byte by byte. -/
theorem range_eq_bytes :
    List.range 64 = (List.range 8).flatMap fun j => (List.range 8).map (8 * j + ·) := by decide

/-- The popcounts of the eight byte fields add up to the popcount of the word. -/
theorem popcountFields_eq_popcount (x : Word) : popcountFields x = popcount x := by
  rw [popcount, range_eq_bytes, List.countP_flatMap, popcountFields]
  congr 1
  refine List.map_congr_left fun j _ => ?_
  rw [popcountByte_eq_countP, Function.comp, List.countP_map]
  refine List.countP_congr fun i hi => ?_
  have hi8 : i < 8 := List.mem_range.mp hi
  simp [hi8]

theorem popcount_le (x : Word) : popcount x ≤ 64 := by
  simpa [popcount] using List.countP_le_length (p := fun i => x.getLsbD i) (l := List.range 64)

theorem gauIndex_eq (x : Word) : gauIndex x = (popcount x : ℤ) - 32 := by
  rw [gauIndex, popcountFields_eq_popcount]

section
variable {k : ℕ} {scale : Word} (hk : 0 < k) (hk' : k ≤ 32)
  (hpos : 0 < exponentField scale) (hfin : exponentField scale < 2040)

include hpos in
/-- `scaleBits` rounds the product of `k` and the significand of the scale. -/
theorem scaleBits_eq_pattern :
    scaleBits k scale =
      pattern (exponentField scale + ((k * significand scale).log2 - 52))
        (roundShift (k * significand scale) ((k * significand scale).log2 - 52)) := by
  rw [significand_of_normal hpos]
  rfl

include hk hpos in
theorem scaled_significand_ge : 2 ^ 52 ≤ k * significand scale := by
  have hsig : 2 ^ 52 ≤ significand scale := by
    rw [significand_of_normal hpos]
    omega
  exact hsig.trans (Nat.le_mul_of_pos_left _ hk)

include hk hk' hpos in
theorem scaled_significand_log2_lt : (k * significand scale).log2 < 58 := by
  have hge := scaled_significand_ge hk hpos
  rw [Nat.log2_lt (by omega)]
  calc k * significand scale ≤ 32 * significand scale := Nat.mul_le_mul_right _ hk'
    _ < 2 ^ 58 := by have := significand_lt scale; omega

include hk hk' hpos hfin

theorem scaleBits_sign : (scaleBits k scale).getLsbD 63 = false := by
  have hlog := scaled_significand_log2_lt hk hk' hpos
  rw [scaleBits_eq_pattern hpos]
  exact pattern_sign (by omega) (roundShift_bounds (scaled_significand_ge hk hpos)).2

theorem scaleBits_roundsTo (hsign : scale.getLsbD 63 = false) {c : ℚ} (hc : f64 scale = some c) :
    RoundsTo (k * c) (scaleBits k scale) := by
  have hlog := scaled_significand_log2_lt hk hk' hpos
  rw [f64_of_normal hsign hpos (by omega)] at hc
  rw [← Option.some.inj hc, ← mul_assoc, ← Nat.cast_mul, scaleBits_eq_pattern hpos]
  exact roundsTo_roundShift (scaled_significand_ge hk hpos) hpos (by omega)

end

/-- Both scales are positive normal patterns, far from the ends of the exponent range. -/
theorem gauScaleBits_normal (g : GauScale) :
    (gauScaleBits g).getLsbD 63 = false ∧ 0 < exponentField (gauScaleBits g) ∧
      exponentField (gauScaleBits g) < 2040 := by
  cases g <;> decide

theorem exists_f64_gauScaleBits (g : GauScale) : ∃ c, f64 (gauScaleBits g) = some c := by
  obtain ⟨hsign, hpos, hfin⟩ := gauScaleBits_normal g
  exact ⟨_, f64_of_normal hsign hpos (by omega)⟩

theorem or_signBit {v : Word} (h : v.getLsbD 63 = false) : signBit ||| v = v ^^^ signBit := by
  have hbit : signBit = BitVec.twoPow 64 63 := by decide
  ext i hi
  rw [BitVec.getElem_or, BitVec.getElem_xor, hbit, BitVec.getElem_twoPow]
  by_cases h63 : i = 63
  · subst h63
    rw [← BitVec.getLsbD_eq_getElem, h]
    rfl
  · simp [h63]

/-- `wy2gau` rounds the product of its index and the scale of the build (R116). -/
theorem wy2gau_roundsTo (bld : Build) (x : Word) {c : ℚ}
    (hc : f64 (gauScaleBits bld.gauScale) = some c) :
    RoundsTo (gauIndex x * c) (wy2gau bld x) := by
  obtain ⟨hsign, hpos, hfin⟩ := gauScaleBits_normal bld.gauScale
  have hle := popcount_le x
  have hindex := gauIndex_eq x
  unfold wy2gau
  split
  next h =>
    rw [h]
    simpa using roundsTo_zero
  next k h =>
    have hk : k + 1 ≤ 32 := by
      rw [hindex, Int.ofNat_eq_natCast] at h
      omega
    rw [h]
    exact scaleBits_roundsTo k.succ_pos hk hpos hfin hsign hc
  next k h =>
    rw [h, or_signBit (scaleBits_sign k.succ_pos (by omega) hpos hfin), Int.cast_negSucc, neg_mul]
    exact (scaleBits_roundsTo k.succ_pos (by omega) hpos hfin hsign hc).neg

theorem wy2gau_of_popcount (bld : Build) {x : Word} (h : popcount x = 32) : wy2gau bld x = 0 := by
  have hindex : gauIndex x = .ofNat 0 := by
    rw [gauIndex_eq, h]
    rfl
  rw [wy2gau, hindex]

/-- `GAU` writes the result of `wy2gau` to `LO`, and nothing else (R118). -/
theorem exec_gau (s : State) :
    ∃ t, exec .gau s = .next t ∧ frame [.lo] s t ∧ t.lo = wy2gau s.build s.a :=
  exists_next_of_lo_written rfl

/-- Settles O56: the scale denotes a number `c`, and `wy2gau` rounds the multiple of it. -/
theorem gaussianDoubleIsCorrectlyRounded : Obligations.GaussianDoubleIsCorrectlyRounded := by
  refine ⟨encode_of_formatN .gau (by decide), fun s => ?_⟩
  obtain ⟨t, hexec, hframe, hlo⟩ := exec_gau s
  obtain ⟨c, hc⟩ := exists_f64_gauScaleBits s.build.gauScale
  refine ⟨t, c, hexec, hframe, hc, ?_, fun h => hlo.trans (wy2gau_of_popcount s.build h)⟩
  have hindex : (popcount s.a : ℚ) - 32 = gauIndex s.a := by
    rw [gauIndex_eq]
    push_cast
    rfl
  rw [hlo, hindex]
  exact wy2gau_roundsTo s.build s.a hc

end Sys2Proof.Machine
end

section
/-! Register transfer (46_transfer.md R120 to R124): what each command does, by the indices it names. -/

namespace Sys2Proof.Machine

theorem mayWrite_eq_false_iff (r : Reg) : r.mayWrite = false ↔ 12 < r.index.toNat := by
  cases r <;> decide

theorem mayRead_eq_false_iff (r : Reg) : r.mayRead = false ↔ r.index.toNat = 15 := by
  cases r <;> decide

/-- A legal destination takes a write of any value: a general register then holds it, and `STATUS` is
cleared with `FADDR` (R121, R122). -/
theorem exists_writeReg {dst : Reg} (hdst : ¬ 12 < dst.index.toNat) (v : Word) (s : State) :
    ∃ t, writeReg dst v s = some t ∧
      (dst.index.toNat < 12 → readReg dst t = some v ∧ frame [dst] s t) ∧
      (dst.index.toNat = 12 →
        readReg .status t = some 0 ∧ readReg .faddr t = some 0 ∧ frame [.status, .faddr] s t) := by
  have hsome : writeReg dst v s ≠ none :=
    mt (fun h => (mayWrite_eq_false_iff dst).1 ((writeReg_eq_none_iff dst v s).1 h)) hdst
  obtain ⟨t, ht⟩ := Option.ne_none_iff_exists'.1 hsome
  refine ⟨t, ht, ?_⟩
  rcases writeReg_cases ht with ⟨hgeneral, hwritten⟩ | ⟨rfl, rfl⟩
  · exact ⟨fun _ => hwritten, fun h => absurd h hgeneral.ne⟩
  · exact ⟨fun h => absurd h (by decide), fun _ => ⟨rfl, rfl, clearStatus_frame s⟩⟩

theorem exec_wri_of_writeReg {dst : Reg} {imm : Word} {s t : State}
    (hw : writeReg dst imm s = some t) : exec (.wri dst imm) s = .next t := by
  simp only [exec, execWri, hw]

theorem exec_mov_of_writeReg {dst src : Reg} {v : Word} {s t : State}
    (hv : readReg src s = some v) (hw : writeReg dst v s = some t) :
    exec (.mov dst src) s = .next t := by
  simp only [exec, execMov, hv, hw]

theorem exec_rd_of_readReg {src : Reg} {v : Word} {s : State} (hv : readReg src s = some v) :
    exec (.rd src) s = .next { s with out := s.out ++ [v] } := by
  simp only [exec, execRd, hv]

/-- Settles O31: `NOP` answers the state it is given. -/
theorem nopChangesNothing : Obligations.NopChangesNothing :=
  ⟨rfl, fun _ => rfl⟩

/-- Settles O32: a destination above 12 is refused, any other is written. -/
theorem wriWritesItsImmediate : Obligations.WriWritesItsImmediate := by
  intro dst imm s
  refine ⟨rfl, ?_⟩
  by_cases hdst : 12 < dst.index.toNat
  · have hill : (Instr.wri dst imm).wellFormed = false := (mayWrite_eq_false_iff dst).2 hdst
    exact ⟨_, exec_of_not_wellFormed hill s, fun h => absurd h hdst.le.not_gt,
      fun h => absurd h hdst.ne', fun _ => rfl⟩
  · obtain ⟨t, hw, hgeneral, hstatus⟩ := exists_writeReg hdst imm s
    exact ⟨t, exec_wri_of_writeReg hw, hgeneral, hstatus, fun h => absurd h hdst⟩

/-- Settles O33: source 15 is refused first, then a destination above 12; else the value the source
reads is written. -/
theorem movCopiesItsSource : Obligations.MovCopiesItsSource := by
  intro dst src s
  refine ⟨rfl, ?_⟩
  by_cases hsrc : src.index.toNat = 15
  · have hill := mov_not_wellFormed_of_src ((mayRead_eq_false_iff src).2 hsrc) dst
    exact ⟨_, exec_of_not_wellFormed hill s, fun _ => rfl, fun h => absurd hsrc h.ne,
      fun h => absurd hsrc h.ne, fun h => absurd hsrc h.ne⟩
  by_cases hdst : 12 < dst.index.toNat
  · have hill := mov_not_wellFormed_of_dst ((mayWrite_eq_false_iff dst).2 hdst) src
    exact ⟨_, exec_of_not_wellFormed hill s, fun _ => rfl, fun _ _ => rfl,
      fun _ h => absurd h hdst.le.not_gt, fun _ h => absurd h hdst.ne'⟩
  · obtain ⟨v, hv⟩ := exists_readReg (fun h : src = .rsv15 => hsrc (h ▸ rfl)) s
    obtain ⟨t, hw, hgeneral, hstatus⟩ := exists_writeReg hdst v s
    exact ⟨t, exec_mov_of_writeReg hv hw, fun h => absurd h hsrc, fun _ h => absurd h hdst,
      fun _ h => hv ▸ hgeneral h, fun _ => hstatus⟩

/-- Settles O34: source 15 is refused, and any other reads the value that is appended. -/
theorem rdAppendsToOut : Obligations.RdAppendsToOut := by
  intro src s
  refine ⟨rfl, ?_⟩
  by_cases hsrc : src.index.toNat = 15
  · have hill : (Instr.rd src).wellFormed = false := (mayRead_eq_false_iff src).2 hsrc
    exact ⟨_, exec_of_not_wellFormed hill s, fun h => absurd hsrc h.ne, fun _ => rfl⟩
  · obtain ⟨v, hv⟩ := exists_readReg (fun h : src = .rsv15 => hsrc (h ▸ rfl)) s
    exact ⟨_, exec_rd_of_readReg hv, fun _ => ⟨v, hv, rfl, rfl⟩, fun h => absurd h hsrc⟩

end Sys2Proof.Machine
end

section
/-! What becomes of a recorded error (46_transfer.md R122, 60_exceptions.md R132). -/

namespace Sys2Proof.Machine

theorem writeReg_keeps_status {dst : Reg} {v : Word} {s t : State} (hdst : dst ≠ .status)
    (h : writeReg dst v s = some t) : t.status = s.status ∧ t.faddr = s.faddr := by
  rcases writeReg_cases h with ⟨hgeneral, -, hregs, -⟩ | ⟨hstatus, -⟩
  · have hfaddr : dst ≠ .faddr := by
      rintro rfl
      exact absurd hgeneral (by decide)
    exact ⟨Option.some.inj (hregs .status (mt List.mem_singleton.1 hdst.symm)),
      Option.some.inj (hregs .faddr (mt List.mem_singleton.1 hfaddr.symm))⟩
  · exact absurd hstatus hdst

/-- A command that does not write `STATUS` changes it and `FADDR` only by raising an error. -/
theorem exec_raises_or_keeps_status {i : Instr} {s t : State} (hi : ¬ writesStatus i)
    (h : exec i s = .next t) :
    (∃ e, t = raise e i.opcode s) ∨ t.status = s.status ∧ t.faddr = s.faddr := by
  rcases exec_cases h with ⟨e, -, ht⟩ | ⟨dst, v, hnames, hw⟩ | ⟨_, _, -, -, rfl⟩ | ⟨-, rfl⟩ |
    ⟨-, rfl⟩ | ⟨-, v, rfl⟩ | ⟨-, rfl⟩ | ⟨-, x, rfl⟩
  case inl => exact .inl ⟨e, ht⟩
  case inr.inl =>
    refine .inr (writeReg_keeps_status ?_ hw)
    rintro rfl
    rcases hnames with rfl | ⟨src, rfl, hv⟩
    · exact hi rfl
    · refine hi ⟨rfl, ?_⟩
      rintro rfl
      cases hv
  all_goals exact .inr ⟨rfl, rfl⟩

theorem raise_keeps_error {s : State} (herr : statusErr s.status = true) (e : CmdError) (opc : Byte) :
    (raise e opc s).status = s.status ||| 2 ∧ (raise e opc s).faddr = s.faddr := by
  rw [raise_later herr]
  exact ⟨rfl, rfl⟩

theorem exec_keeps_error {i : Instr} {s t : State} (hi : ¬ writesStatus i) (h : exec i s = .next t)
    (herr : statusErr s.status = true) :
    (t.status = s.status ∨ t.status = s.status ||| 2) ∧ t.faddr = s.faddr := by
  rcases exec_raises_or_keeps_status hi h with ⟨e, rfl⟩ | ⟨hstatus, hfaddr⟩
  · exact (raise_keeps_error herr e i.opcode).imp_left .inr
  · exact ⟨.inl hstatus, hfaddr⟩

/-- Settles O26: the two writes, then a step with an error recorded, by what it receives. -/
theorem onlyAStatusWriteClearsAnError : Obligations.OnlyAStatusWriteClearsAnError := by
  refine ⟨fun _ _ => rfl, fun src s hsrc => ?_, fun s t herr h => ?_⟩
  · obtain ⟨v, hv⟩ := exists_readReg hsrc s
    exact exec_mov_of_writeReg hv rfl
  rcases step_cases s with ⟨i, rest, htake, hs⟩ | ⟨opc, rest, -, hs⟩ | ⟨-, hs⟩ <;> rw [hs] at h
  · by_cases hi : writesStatus i
    · exact .inr ⟨i, rest, htake, hi⟩
    · have hkeeps := exec_keeps_error hi h herr
      exact .inl hkeeps
  · cases h
    have hkeeps := raise_keeps_error (s := { s with pending := .idle, port := rest }) herr
    exact .inl ((hkeeps .illegalCmd opc).imp_left .inr)
  · cases h
    exact .inl ⟨.inl rfl, rfl⟩

end Sys2Proof.Machine
end

section
/-! The opcode map as a partition of the words (30_encoding.md R68, R69, R72, R73): the fields a row fixes,
the legal words by format, and what each of them decodes to. -/

namespace Sys2Proof

/-! ### The fields of the rows -/

/-- The bits each row of the map compares: `OPC` and `RSV` always, `RD` and `RS` where the format does
not use them. -/
theorem opcodeMap_fields : ∀ row ∈ opcodeMap,
    fieldOpc row.mask = 0xFF ∧ fieldRsv row.mask = 0xFFFF ∧ fieldRsv row.pattern = 0 ∧
    (fieldOpc row.pattern ∉ ([0x01, 0x02] : List Byte) →
      fieldRd row.mask = 0xF ∧ fieldRd row.pattern = 0) ∧
    (fieldOpc row.pattern ∉ ([0x02, 0x03] : List Byte) →
      fieldRs row.mask = 0xF ∧ fieldRs row.pattern = 0) := by
  decide

/-- The opcodes of the map, in the order of its rows. -/
theorem opcodeMap_opcodes : opcodeMap.map (fun row => fieldOpc row.pattern) =
    [0x00, 0x01, 0x02, 0x03, 0x10, 0x11, 0x20, 0x21, 0x22, 0x30, 0x40, 0x41, 0x50, 0x60, 0x61] := by
  decide

/-- Every row fixes `OPC` (R72). -/
theorem OpcodeRow.fieldOpc_of_selects {row : OpcodeRow} (hrow : row ∈ opcodeMap) {w : CmdWord}
    (hw : row.selects w = true) : fieldOpc w = fieldOpc row.pattern := by
  obtain ⟨hmask, -⟩ := opcodeMap_fields row hrow
  obtain ⟨hopc, -⟩ := (row.selects_iff w).1 hw
  rw [← hopc, hmask]
  exact BitVec.and_allOnes.symm

/-- A word that some row selects has its opcode in the map and 0 in every field its format does not
use (R68). -/
theorem OpcodeRow.not_illegalWord_of_selects {row : OpcodeRow} (hrow : row ∈ opcodeMap) {w : CmdWord}
    (hw : row.selects w = true) : ¬ Machine.illegalWord w := by
  have hopc := OpcodeRow.fieldOpc_of_selects hrow hw
  obtain ⟨-, hrsvMask, hrsvZero, hrdUnused, hrsUnused⟩ := opcodeMap_fields row hrow
  obtain ⟨-, hrd, hrs, hrsv⟩ := (row.selects_iff w).1 hw
  rintro (hunknown | hbad | ⟨hbad, hfmt⟩ | ⟨hbad, hfmt⟩)
  · rw [hopc, ← opcodeMap_opcodes] at hunknown
    exact hunknown (List.mem_map_of_mem hrow)
  · rw [hrsvMask, hrsvZero] at hrsv
    exact hbad (BitVec.and_allOnes.symm.trans hrsv)
  · obtain ⟨hmask, hzero⟩ := hrdUnused (hopc ▸ hfmt)
    rw [hmask, hzero] at hrd
    exact hbad (BitVec.and_allOnes.symm.trans hrd)
  · obtain ⟨hmask, hzero⟩ := hrsUnused (hopc ▸ hfmt)
    rw [hmask, hzero] at hrs
    exact hbad (BitVec.and_allOnes.symm.trans hrs)

/-- Settles O4: the opcodes of the 15 rows are distinct, and a row selects words of its opcode only. -/
theorem atMostOneOpcodeRowSelectsAWord : Obligations.AtMostOneOpcodeRowSelectsAWord := by
  refine ⟨rfl, fun j k w r r' hr hr' hw hw' => ?_⟩
  have hopc : fieldOpc r.pattern = fieldOpc r'.pattern :=
    (OpcodeRow.fieldOpc_of_selects (List.mem_of_getElem? hr) hw).symm.trans
      (OpcodeRow.fieldOpc_of_selects (List.mem_of_getElem? hr') hw')
  have hnodup : (opcodeMap.map fun row => fieldOpc row.pattern).Nodup := by
    rw [opcodeMap_opcodes]
    decide
  refine Fin.ext ((List.getElem?_inj j.isLt hnodup).1 ?_)
  rw [List.getElem?_map, List.getElem?_map, hr, hr']
  exact congrArg some hopc

/-! ### The legal words (R68) -/

theorem fields_of_formatN : ∀ i ∈ formatN,
    fieldOpc (i.opcode.setWidth 32) = i.opcode ∧ fieldRd (i.opcode.setWidth 32) = 0 ∧
    fieldRs (i.opcode.setWidth 32) = 0 ∧ fieldRsv (i.opcode.setWidth 32) = 0 := by
  decide

/-- The opcodes of format N. -/
theorem exists_formatN_of_opcode : ∀ o ∈ ([0x00, 0x01, 0x02, 0x03, 0x10, 0x11, 0x20, 0x21, 0x22, 0x30,
    0x40, 0x41, 0x50, 0x60, 0x61] : List Byte), o ≠ 0x01 → o ≠ 0x02 → o ≠ 0x03 →
    ∃ i ∈ formatN, i.opcode = o := by
  decide

/-- The legal words by format: N, I, R and S. -/
theorem legalWord_cases {w : CmdWord} (h : ¬ Machine.illegalWord w) :
    (∃ i ∈ formatN, w = i.opcode.setWidth 32) ∨
    (fieldOpc w = 0x01 ∧ fieldRs w = 0 ∧ fieldRsv w = 0) ∨
    (fieldOpc w = 0x02 ∧ fieldRsv w = 0) ∨
    (fieldOpc w = 0x03 ∧ fieldRd w = 0 ∧ fieldRsv w = 0) := by
  simp only [Machine.illegalWord, not_or, not_and, not_not] at h
  obtain ⟨hopc, hrsv, hrd, hrs⟩ := h
  replace hrd : fieldOpc w ∉ ([0x01, 0x02] : List Byte) → fieldRd w = 0 := not_imp_comm.1 hrd
  replace hrs : fieldOpc w ∉ ([0x02, 0x03] : List Byte) → fieldRs w = 0 := not_imp_comm.1 hrs
  by_cases h1 : fieldOpc w = 0x01
  · exact .inr (.inl ⟨h1, hrs (by rw [h1]; decide), hrsv⟩)
  by_cases h2 : fieldOpc w = 0x02
  · exact .inr (.inr (.inl ⟨h2, hrsv⟩))
  by_cases h3 : fieldOpc w = 0x03
  · exact .inr (.inr (.inr ⟨h3, hrd (by rw [h3]; decide), hrsv⟩))
  · obtain ⟨i, hi, hio⟩ := exists_formatN_of_opcode _ hopc h1 h2 h3
    obtain ⟨io, ird, irs, irsv⟩ := fields_of_formatN i hi
    refine .inl ⟨i, hi, cmdWord_ext (hrsv.trans irsv.symm) ?_ ?_ (hio.symm.trans io.symm)⟩
    · exact (hrs (by simpa using ⟨h2, h3⟩)).trans irs.symm
    · exact (hrd (by simpa using ⟨h1, h2⟩)).trans ird.symm

/-- What the decoder reads is a command exactly for a legal word (R73). -/
theorem exists_command_iff_not_illegalWord (w immLo immHi : CmdWord) :
    (∃ i, decodeCommand w immLo immHi = .command i) ↔ ¬ Machine.illegalWord w := by
  constructor
  · rintro ⟨i, hi⟩
    obtain ⟨row, hrow, hw, -⟩ := exists_row_of_decodeCommand hi
    exact OpcodeRow.not_illegalWord_of_selects hrow hw
  · intro h
    rcases legalWord_cases h with ⟨i, hi, rfl⟩ | ⟨hopc, hrs, hrsv⟩ | ⟨hopc, hrsv⟩ | ⟨hopc, hrd, hrsv⟩
    · exact ⟨_, decodeCommand_of_formatN hi immLo immHi⟩
    · exact ⟨_, decodeCommand_wri hopc hrs hrsv immLo immHi⟩
    · exact ⟨_, decodeCommand_mov hopc hrsv immLo immHi⟩
    · exact ⟨_, decodeCommand_rd hopc hrd hrsv immLo immHi⟩

/-- The decoder answers a command or an illegal word with its own `OPC`, nothing else. -/
theorem decodeCommand_eq_illegal_iff (w immLo immHi : CmdWord) :
    decodeCommand w immLo immHi = .illegal (fieldOpc w) ↔
      ¬ ∃ i, decodeCommand w immLo immHi = .command i := by
  unfold decodeCommand
  split <;> simp

/-! ### Decoding, then encoding -/

theorem wri_word_of_fields {w : CmdWord} (hopc : fieldOpc w = 0x01) (hrs : fieldRs w = 0)
    (hrsv : fieldRsv w = 0) : 0x01 ||| ((fieldRd w).setWidth 32 <<< 8) = w := by
  obtain ⟨ho, hd, hs, hv⟩ := fields_of_wri_word (fieldRd w)
  exact cmdWord_ext (hv.trans hrsv.symm) (hs.trans hrs.symm) hd (ho.trans hopc.symm)

theorem mov_word_of_fields {w : CmdWord} (hopc : fieldOpc w = 0x02) (hrsv : fieldRsv w = 0) :
    0x02 ||| ((fieldRd w).setWidth 32 <<< 8) ||| ((fieldRs w).setWidth 32 <<< 12) = w := by
  obtain ⟨ho, hd, hs, hv⟩ := fields_of_assembled 0x02 (fieldRd w) (fieldRs w)
  exact cmdWord_ext (hv.trans hrsv.symm) hs hd (ho.trans hopc.symm)

theorem rd_word_of_fields {w : CmdWord} (hopc : fieldOpc w = 0x03) (hrd : fieldRd w = 0)
    (hrsv : fieldRsv w = 0) : 0x03 ||| ((fieldRs w).setWidth 32 <<< 12) = w := by
  obtain ⟨ho, hd, hs, hv⟩ := fields_of_rd_word (fieldRs w)
  exact cmdWord_ext (hv.trans hrsv.symm) hs (hd.trans hrd.symm) (ho.trans hopc.symm)

/-- Settles O2: taking a command off its own words, whatever follows. -/
theorem decodeReadsBackEveryEncodedCommand : Obligations.DecodeReadsBackEveryEncodedCommand :=
  takeCommand_encode_append

/-- Settles O3: by the format of the word, whose fields put the word together again. -/
theorem legalWordsAreTheEncodingOfTheirCommand :
    Obligations.LegalWordsAreTheEncodingOfTheirCommand := by
  intro w immLo immHi i h
  rcases legalWord_cases ((exists_command_iff_not_illegalWord w immLo immHi).1 ⟨i, h⟩) with
    ⟨j, hj, rfl⟩ | ⟨hopc, hrs, hrsv⟩ | ⟨hopc, hrsv⟩ | ⟨hopc, hrd, hrsv⟩
  · rw [decodeCommand_of_formatN hj] at h
    cases h
    have hne : ∀ k ∈ formatN, k.opcode ≠ 0x01 := by decide
    obtain ⟨hopc, -⟩ := fields_of_formatN i hj
    rw [encode_of_formatN i hj, hopc, if_neg (hne i hj)]
  · rw [decodeCommand_wri hopc hrs hrsv] at h
    cases h
    rw [encode, Reg.index_ofIndex, wri_word_of_fields hopc hrs hrsv, immediate_low, immediate_high,
      if_pos hopc]
  · rw [decodeCommand_mov hopc hrsv] at h
    cases h
    rw [encode, Reg.index_ofIndex, Reg.index_ofIndex, mov_word_of_fields hopc hrsv,
      if_neg (by rw [hopc]; decide)]
  · rw [decodeCommand_rd hopc hrd hrsv] at h
    cases h
    rw [encode, Reg.index_ofIndex, rd_word_of_fields hopc hrd hrsv, if_neg (by rw [hopc]; decide)]

/-- Settles O1: the decoder, run on each of the example words. -/
theorem specExampleWordsDecode : Obligations.SpecExampleWordsDecode :=
  ⟨rfl, rfl, rfl, rfl, rfl, rfl, rfl, rfl, rfl, rfl, rfl, rfl, rfl, rfl⟩

end Sys2Proof
end

section
/-! What a step does with the words it receives (30_encoding.md R71, R73; 60_exceptions.md R134, R144). -/

namespace Sys2Proof.Machine

/-- Settles O6: the decoder's answer by the legality of the word, and the step that receives its last
word. -/
theorem illegalWordsRaiseIllegalCmd : Obligations.IllegalWordsRaiseIllegalCmd := by
  intro w immLo immHi
  have hlegal (lo hi : CmdWord) := exists_command_iff_not_illegalWord w lo hi
  have hillegal (lo hi : CmdWord) : decodeCommand w lo hi = .illegal (fieldOpc w) ↔ illegalWord w := by
    rw [decodeCommand_eq_illegal_iff, hlegal, not_not]
  refine ⟨(hillegal immLo immHi).symm, (hlegal immLo immHi).symm, fun hw s rest =>
    ⟨fun hopc hwords => step_of_illegal ?_, fun hopc hwords => step_of_illegal ?_⟩⟩
  · rw [hwords, takeCommand_of_threeWords hopc, (hillegal immLo immHi).2 hw]
  · rw [hwords, takeCommand_of_oneWord hopc, (hillegal 0 0).2 hw]

theorem takeCommand_of_incomplete {w : CmdWord} (h : fieldOpc w = 0x01) (immLo : CmdWord) :
    takeCommand [w] = none ∧ takeCommand [w, immLo] = none :=
  ⟨if_pos h, if_pos h⟩

/-- Settles O7: the two lengths, then the step that only receives the one or two words there are. -/
theorem anIncompleteWriHasNotStarted : Obligations.AnIncompleteWriHasNotStarted := by
  intro w immLo immHi rest s
  refine ⟨fun hopc => takeCommand_of_oneWord hopc rest,
    fun hopc => takeCommand_of_threeWords hopc immLo immHi rest, fun hopc hwords => ?_⟩
  obtain ⟨hone, htwo⟩ := takeCommand_of_incomplete hopc immLo
  rcases hwords with hwords | hwords
  · exact ⟨_, step_of_waiting (by rw [hwords, hone]), rfl, by rw [hwords]; rfl⟩
  · exact ⟨_, step_of_waiting (by rw [hwords, htwo]), rfl, by rw [hwords]; rfl⟩

/-- Settles O8: each of the first two steps only receives its word, so the third begins with the words
that are at the port in the step it is compared with. -/
theorem wordsMayArriveOneAtATime : Obligations.WordsMayArriveOneAtATime := by
  intro s w immLo immHi hidle hport hopc
  obtain ⟨hone, htwo⟩ := takeCommand_of_incomplete hopc immLo
  have hpresent (d : DecodeState) (ws : List CmdWord) :
      envApply (.present ws) { s with pending := d, port := [] } =
        { s with pending := d, port := ws } := by
    simp [envApply]
  have hs : s = { s with pending := .idle, port := [] } := by rw [← hidle, ← hport]
  refine ⟨{ s with pending := .haveCommand w, port := [] },
    { s with pending := .haveLow w immLo, port := [] }, ?_, ?_, ?_⟩
  · rw [hs, hpresent]
    exact step_of_waiting hone
  · rw [hpresent]
    exact step_of_waiting htwo
  · rw [hpresent, hs, hpresent]
    rfl

/-- Settles O10: this is how a step is made from its command. -/
theorem stepRunsTheCommandAtThePort : Obligations.StepRunsTheCommandAtThePort :=
  fun _ _ _ => step_of_command

/-- The words held of an incomplete `WRI` are not yet a command, and holding them again is no change. -/
theorem receivedWords_of_decodeInv {d : DecodeState} (h : DecodeInv d) :
    takeCommand (receivedWords d) = none ∧ holdWords (receivedWords d) = d := by
  cases d with
  | idle => exact ⟨rfl, rfl⟩
  | haveCommand w => exact ⟨if_pos h, rfl⟩
  | haveLow w immLo => exact ⟨if_pos h, rfl⟩

/-- Settles O11: with no word at the port a step receives again what it holds. -/
theorem aWaitingBlockKeepsItsState : Obligations.AWaitingBlockKeepsItsState := by
  intro s hport hdecode
  obtain ⟨htake, hhold⟩ := receivedWords_of_decodeInv hdecode
  have hwords : receivedWords s.pending ++ s.port = receivedWords s.pending := by simp [hport]
  have hwait := step_of_waiting ((congrArg takeCommand hwords).trans htake)
  rw [hwait, hwords, hhold, ← hport]

/-- No command is refused but `MKSEC`, and that only when its search answers nothing (R111). -/
theorem exec_next_or_mksec_refused (i : Instr) (s : State) :
    (∃ t, exec i s = .next t) ∨ i = .mksec ∧ makeSecret s.build s.mksecFuel s.seed = none ∧
      exec i s = .refused .mksecFuelExhausted := by
  cases i with
  | mksec =>
    simp only [exec, execMksec]
    rcases makeSecret s.build s.mksecFuel s.seed with _ | x
    · exact .inr ⟨trivial, rfl, rfl⟩
    · exact .inl ⟨_, rfl⟩
  | wri dst imm =>
    simp only [exec, execWri]
    cases writeReg dst imm s <;> exact .inl ⟨_, rfl⟩
  | mov dst src =>
    simp only [exec, execMov]
    rcases readReg src s with _ | v
    · exact .inl ⟨_, rfl⟩
    · simp only
      cases writeReg dst v s <;> exact .inl ⟨_, rfl⟩
  | rd src =>
    simp only [exec, execRd]
    cases readReg src s <;> exact .inl ⟨_, rfl⟩
  | rdsm =>
    simp only [exec, execRdsm]
    split <;> exact .inl ⟨_, rfl⟩
  | nop | mum | mix | rd64 | rd32 | hash | defsec | rand | u01 | gau => exact .inl ⟨_, rfl⟩

/-- Settles O12: by what the step receives. -/
theorem onlyMksecIsEverRefused : Obligations.OnlyMksecIsEverRefused := by
  intro s
  rcases step_cases s with ⟨i, rest, htake, hs⟩ | ⟨opc, rest, -, hs⟩ | ⟨-, hs⟩
  · rcases exec_next_or_mksec_refused i { s with pending := .idle, port := rest } with
      ⟨t, ht⟩ | ⟨rfl, hsearch, hrefused⟩
    · exact .inl ⟨t, hs.trans ht⟩
    · exact .inr ⟨hs.trans hrefused, hsearch, rest, htake⟩
  · exact .inl ⟨_, hs⟩
  · exact .inl ⟨_, hs⟩

/-- Settles O16: no step touches memory, the build or the fuel. -/
theorem noStepWritesMemoryOrTheBuild : Obligations.NoStepWritesMemoryOrTheBuild :=
  fun _ _ => step_around

end Sys2Proof.Machine
end

section
/-! What an error leaves in `STATUS` and `FADDR` (60_exceptions.md R130, R132). -/

namespace Sys2Proof.Machine

/-! ### The bits an error does not write -/

theorem or_and_of_and_eq_zero {x y n : Word} (h : y &&& n = 0) : (x ||| y) &&& n = x &&& n := by
  rw [BitVec.and_comm, BitVec.and_or_distrib_left, BitVec.and_comm n y, h]
  exact BitVec.or_zero.trans (BitVec.and_comm n x)

/-- A first error writes `ERR`, `ECODE` and `EOPC` only (10_state.md R32). -/
theorem recordFirst_other_bits (v : Word) (c : BitVec 4) (o : Byte) :
    recordFirst v c o &&& ~~~(0xFFF1 : Word) = v &&& ~~~(0xFFF1 : Word) := by
  have herr : (1 : Word) &&& ~~~(0xFFF1 : Word) = 0 := by decide
  have hcode : ∀ c : BitVec 4, (c.setWidth 64 <<< 4) &&& ~~~(0xFFF1 : Word) = 0 := by decide
  have hopc : ∀ o : Byte, (o.setWidth 64 <<< 8) &&& ~~~(0xFFF1 : Word) = 0 := by decide
  calc recordFirst v c o &&& ~~~(0xFFF1 : Word)
    _ = (v &&& ~~~(0xFFF1 : Word)) &&& ~~~(0xFFF1 : Word) :=
      (or_and_of_and_eq_zero (hopc o)).trans
        ((or_and_of_and_eq_zero (hcode c)).trans (or_and_of_and_eq_zero herr))
    _ = v &&& ~~~(0xFFF1 : Word) := by rw [BitVec.and_assoc, BitVec.and_self]

/-- A later error writes `MULTI` only. -/
theorem recordLater_other_bits (v : Word) :
    recordLater v &&& ~~~(0x2 : Word) = v &&& ~~~(0x2 : Word) :=
  or_and_of_and_eq_zero (by decide)

/-- The first word of a command holds its opcode (30_encoding.md R68). -/
theorem encodingShape (i : Instr) : Laws.EncodingShape.Statement i := by
  cases i with
  | nop => exact Laws.EncodingShape.nop
  | wri dst imm => exact Laws.EncodingShape.wri dst imm
  | mov dst src => exact Laws.EncodingShape.mov dst src
  | rd src => exact Laws.EncodingShape.rd src
  | mum => exact Laws.EncodingShape.mum
  | mix => exact Laws.EncodingShape.mix
  | rd64 => exact Laws.EncodingShape.rd64
  | rd32 => exact Laws.EncodingShape.rd32
  | rdsm => exact Laws.EncodingShape.rdsm
  | hash => exact Laws.EncodingShape.hash
  | defsec => exact Laws.EncodingShape.defsec
  | mksec => exact Laws.EncodingShape.mksec
  | rand => exact Laws.EncodingShape.rand
  | u01 => exact Laws.EncodingShape.u01
  | gau => exact Laws.EncodingShape.gau

theorem opcode_eq_fieldOpc {i : Instr} {w : CmdWord} {ws : List CmdWord} (h : encode i = w :: ws) :
    i.opcode = fieldOpc w := by
  obtain ⟨w', rest, hi, hopc, -⟩ := encodingShape i
  rw [h] at hi
  cases hi
  exact hopc.symm

/-- Settles O25: the first error, then a later one. -/
theorem raiseRecordsTheFirstError : Obligations.RaiseRecordsTheFirstError := by
  refine ⟨fun _ _ _ => opcode_eq_fieldOpc,
    fun e opc s => ⟨fun herr => ?_, fun herr => ?_, raise_frame e opc s⟩⟩
  · rw [raise_first herr]
    exact ⟨statusErr_recordFirst .., (statusEcode_recordFirst ..).trans (by cases e <;> rfl),
      statusEopc_recordFirst .., recordFirst_other_bits .., by cases e <;> rfl⟩
  · rw [raise_later herr]
    exact ⟨statusMulti_recordLater _, recordLater_other_bits _, rfl⟩

/-! ### What a command does to `STATUS` and `FADDR` -/

theorem exec_of_writesStatus {i : Instr} (h : writesStatus i) (s : State) :
    exec i s = .next { s with status := 0, faddr := 0 } := by
  cases i with
  | wri dst imm => cases h; rfl
  | mov dst src =>
    obtain ⟨rfl, hsrc⟩ := h
    obtain ⟨v, hv⟩ := exists_readReg hsrc s
    exact exec_mov_of_writeReg hv rfl
  | nop | rd | mum | mix | rd64 | rd32 | rdsm | hash | defsec | mksec | rand | u01 | gau =>
    exact h.elim

/-- All a command can do to `STATUS` and `FADDR`: it raises an error it may raise, it clears them, or it
leaves them as they are (R130, R132; 46_transfer.md R122). -/
theorem exec_status_cases {i : Instr} {s t : State} (h : exec i s = .next t) :
    (∃ e, mayRaise i e ∧ t = raise e i.opcode s) ∨
    (writesStatus i ∧ t.status = 0 ∧ t.faddr = 0) ∨ (t.status = s.status ∧ t.faddr = s.faddr) := by
  by_cases hi : writesStatus i
  · rw [exec_of_writesStatus hi] at h
    cases h
    exact .inr (.inl ⟨hi, rfl, rfl⟩)
  rcases exec_cases h with hraise | ⟨dst, v, hnames, hw⟩ | ⟨_, _, -, -, rfl⟩ | ⟨-, rfl⟩ | ⟨-, rfl⟩ |
    ⟨-, v, rfl⟩ | ⟨-, rfl⟩ | ⟨-, x, rfl⟩
  case inl => exact .inl hraise
  case inr.inl =>
    refine .inr (.inr (writeReg_keeps_status ?_ hw))
    rintro rfl
    rcases hnames with rfl | ⟨src, rfl, hv⟩
    · exact hi rfl
    · exact hi ⟨rfl, fun hsrc => by subst hsrc; cases hv⟩
  all_goals exact .inr (.inr ⟨rfl, rfl⟩)

/-! ### The invariant of `STATUS` and `FADDR` (10_state.md R32, R34) -/

/-- The opcodes that can record an error: any, for an illegal word, else those of the column "raised by"
of R130. -/
def recordedBy (e : CmdError) (opc : Byte) : Prop :=
  match e with
  | .illegalCmd => True
  | .illegalReg => opc ∈ ([0x01, 0x02, 0x03] : List Byte)
  | .illegalLen => opc = 0x22
  | .range _ => opc ∈ ([0x20, 0x21, 0x22, 0x30] : List Byte)
  | .bus _ => opc ∈ ([0x20, 0x21, 0x22, 0x30] : List Byte)

theorem recordedBy_of_mayRaise {i : Instr} {e : CmdError} (h : mayRaise i e) :
    recordedBy e i.opcode := by
  have hload : ∀ i ∈ [Instr.rd64, .rd32, .rdsm, .hash],
      i.opcode ∈ ([0x20, 0x21, 0x22, 0x30] : List Byte) := by decide
  cases e with
  | illegalCmd => trivial
  | illegalReg => exact h
  | illegalLen => exact congrArg Instr.opcode h
  | range p => exact hload i h
  | bus a => exact hload i h

theorem statusInv_of_cleared {s : State} (hstatus : s.status = 0) (hfaddr : s.faddr = 0) :
    StatusInv s := by
  unfold StatusInv
  rw [hstatus, hfaddr]
  decide

theorem statusInv_of_kept {s t : State} (h : StatusInv s) (hstatus : t.status = s.status)
    (hfaddr : t.faddr = s.faddr) : StatusInv t := by
  unfold StatusInv
  rw [hstatus, hfaddr]
  exact h

/-- The first error is recorded in a clear `STATUS`, so nothing but its own fields is set. -/
theorem raise_first_statusInv {s : State} (hstatus : s.status = 0) (hfaddr : s.faddr = 0)
    {e : CmdError} {opc : Byte} (he : recordedBy e opc) : StatusInv (raise e opc s) := by
  have herr : statusErr s.status = false := by rw [hstatus]; rfl
  have hreserved (c : BitVec 4) (o : Byte) : recordFirst 0 c o &&& ~~~(0xFFF3 : Word) = 0 := by
    have hmask : ~~~(0xFFF3 : Word) = ~~~(0xFFF1 : Word) &&& ~~~(0xFFF3 : Word) := by decide
    rw [hmask, ← BitVec.and_assoc, recordFirst_other_bits]
    decide
  rw [raise_first herr, hstatus, hfaddr]
  refine ⟨hreserved _ _, fun h => ?_, fun _ => ?_, fun hne4 hne5 => ?_⟩
  · simp at h
  · simp only [statusEcode_recordFirst, statusEopc_recordFirst]
    cases e with
    | illegalCmd => exact .inl rfl
    | illegalReg => exact .inr (.inl ⟨rfl, he⟩)
    | illegalLen => exact .inr (.inr (.inl ⟨rfl, he⟩))
    | range p => exact .inr (.inr (.inr (.inl ⟨rfl, he⟩)))
    | bus a => exact .inr (.inr (.inr (.inr ⟨rfl, he⟩)))
  · simp only [statusEcode_recordFirst] at hne4 hne5
    cases e with
    | illegalCmd | illegalReg | illegalLen => rfl
    | range p => exact absurd rfl hne4
    | bus a => exact absurd rfl hne5

/-- A later error only adds `MULTI`, so what the first one left stays. -/
theorem raise_later_statusInv {s : State} (hs : StatusInv s) (herr : statusErr s.status = true)
    (e : CmdError) (opc : Byte) : StatusInv (raise e opc s) := by
  obtain ⟨hreserved, -, hcode, hfaddr⟩ := hs
  rw [raise_later herr]
  refine ⟨(or_and_of_and_eq_zero (by decide)).trans hreserved, fun h => ?_, fun _ => ?_, ?_⟩
  · rw [statusErr_recordLater, herr] at h
    cases h
  · simpa only [statusEcode_recordLater, statusEopc_recordLater] using hcode herr
  · simpa only [statusEcode_recordLater] using hfaddr

theorem raise_statusInv {s : State} (hs : StatusInv s) {e : CmdError} {opc : Byte}
    (he : recordedBy e opc) : StatusInv (raise e opc s) := by
  rcases herr : statusErr s.status
  · obtain ⟨-, hclear, -, -⟩ := hs
    obtain ⟨hstatus, hfaddr⟩ := hclear herr
    exact raise_first_statusInv hstatus hfaddr he
  · exact raise_later_statusInv hs herr e opc

theorem exec_statusInv {i : Instr} {s t : State} (hs : StatusInv s) (h : exec i s = .next t) :
    StatusInv t := by
  rcases exec_status_cases h with ⟨e, he, rfl⟩ | ⟨-, hstatus, hfaddr⟩ | ⟨hstatus, hfaddr⟩
  · exact raise_statusInv hs (recordedBy_of_mayRaise he)
  · exact statusInv_of_cleared hstatus hfaddr
  · exact statusInv_of_kept hs hstatus hfaddr

theorem step_statusInv {s t : State} (hs : StatusInv s) (h : step s = .next t) : StatusInv t := by
  rcases step_cases s with ⟨i, rest, -, hstep⟩ | ⟨opc, rest, -, hstep⟩ | ⟨-, hstep⟩ <;>
    rw [hstep] at h
  · exact exec_statusInv (s := { s with pending := .idle, port := rest }) hs h
  · cases h
    exact raise_statusInv (s := { s with pending := .idle, port := rest }) hs trivial
  · cases h
    exact hs

/-! ### The invariant of the machine -/

/-- Words that are no whole command are held as those of a `WRI` (10_state.md R39). -/
theorem holdWords_decodeInv {ws : List CmdWord} (h : takeCommand ws = none) :
    DecodeInv (holdWords ws) := by
  rcases takeCommand_eq_none h with rfl | ⟨w, rfl, hopc⟩ | ⟨w, immLo, rfl, hopc⟩
  · trivial
  · exact hopc
  · exact hopc

/-- Whatever the decode state was, a step leaves it between commands or inside a `WRI`. -/
theorem step_decodeInv {s t : State} (h : step s = .next t) : DecodeInv t.pending := by
  rcases step_cases s with ⟨i, rest, -, hstep⟩ | ⟨opc, rest, -, hstep⟩ | ⟨htake, hstep⟩ <;>
    rw [hstep] at h
  · obtain ⟨-, -, -, hpending, -⟩ := exec_around h
    rw [hpending]
    trivial
  · cases h
    rw [raise_pending]
    trivial
  · cases h
    exact holdWords_decodeInv htake

/-- Settles O20: each part of the invariant on its own. -/
theorem everyStepKeepsInv : Obligations.EveryStepKeepsInv := by
  rintro s t ⟨hstatus, -, hmem⟩ h
  obtain ⟨hkept, -, -⟩ := step_around h
  exact ⟨step_statusInv hstatus h, step_decodeInv h, hkept ▸ hmem⟩

theorem resetWith_inv (bld : Build) (draw : Word) {m : Memory} (hm : Memory.wf m) (ws : List CmdWord)
    (fuel : Nat) : Inv (.resetWith bld draw m ws fuel) :=
  ⟨statusInv_of_cleared rfl rfl, trivial, hm⟩

/-- Settles O19: a reset clears `STATUS`, `FADDR` and the decode state, and the empty memory of the
reset state is in canonical form. -/
theorem invHoldsAfterReset : Obligations.InvHoldsAfterReset :=
  ⟨resetWith_inv _ _ ⟨List.Pairwise.nil, fun _ h => by cases h⟩ _ _,
    fun bld draw _ ws fuel hm => resetWith_inv bld draw hm ws fuel⟩

/-- Settles O21: each move touches one part of the invariant at most. -/
theorem everyHostMoveKeepsInv : Obligations.EveryHostMoveKeepsInv := by
  rintro m s ⟨hstatus, hdecode, hmem⟩
  cases m with
  | present ws => exact ⟨hstatus, hdecode, hmem⟩
  | takeOut => exact ⟨hstatus, hdecode, hmem⟩
  | writeByte a v => exact ⟨hstatus, hdecode, memWrite_wf hmem a.isLt v⟩
  | unmapByte a => exact ⟨hstatus, hdecode, memUnmap_wf hmem a.toNat⟩
  | reset draw => exact resetWith_inv _ draw hmem _ _

end Sys2Proof.Machine
end

section
/-! What a command leaves unchanged (00_scope.md R13, 10_state.md R21). -/

namespace Sys2Proof.Machine

/-- Appending to `OUT` is no write to a register. -/
theorem sameRegsBut_with_out (l : List Reg) (s : State) (o : List Word) :
    sameRegsBut l s { s with out := o } :=
  fun r _ => readReg_with_out r s o

theorem writtenRegs_of_lo {i : Instr} (h : i ∈ [Instr.mix, .rd64, .rd32, .rdsm, .hash, .u01, .gau]) :
    writtenRegs i = [.lo] := by
  fin_cases h <;> rfl

theorem writtenRegs_of_secret {i : Instr} (h : i ∈ [Instr.defsec, .mksec]) :
    writtenRegs i = [.sec0, .sec1, .sec2, .sec3] := by
  fin_cases h <;> rfl

/-- A command that names its destination lists it as written. -/
theorem writtenRegs_of_dst {i : Instr} {dst : Reg} {v : Word}
    (h : i = .wri dst v ∨ ∃ src, i = .mov dst src) :
    writtenRegs i = if dst = .status then [.status, .faddr] else [dst] := by
  rcases h with rfl | ⟨src, rfl⟩ <;> rfl

theorem writeReg_sameRegsBut {dst : Reg} {v : Word} {s t : State} (h : writeReg dst v s = some t) :
    sameRegsBut (if dst = .status then [.status, .faddr] else [dst]) s t := by
  rcases writeReg_cases h with ⟨hgeneral, -, hregs, -⟩ | ⟨rfl, rfl⟩
  · have hdst : dst ≠ .status := by
      rintro rfl
      exact absurd hgeneral (by decide)
    rwa [if_neg hdst]
  · exact (clearStatus_frame s).1

/-- A command changes the registers it lists as written, or raises an error, which changes `STATUS` and
`FADDR` (R13, 60_exceptions.md R132). -/
theorem exec_sameRegsBut {i : Instr} {s t : State} (h : exec i s = .next t) :
    sameRegsBut [.status, .faddr] s t ∨ sameRegsBut (writtenRegs i) s t := by
  rcases exec_cases h with ⟨e, -, rfl⟩ | ⟨dst, v, hnames, hw⟩ | ⟨_, _, -, -, rfl⟩ | ⟨-, rfl⟩ |
    ⟨rfl, rfl⟩ | ⟨hi, v, rfl⟩ | ⟨rfl, rfl⟩ | ⟨hi, x, rfl⟩
  · exact .inl (raise_frame e i.opcode s).1
  · rw [writtenRegs_of_dst (hnames.imp_right fun ⟨src, hi, _⟩ => ⟨src, hi⟩)]
    exact .inr (writeReg_sameRegsBut hw)
  · exact .inr (sameRegsBut_with_out _ s _)
  · exact .inr fun _ _ => rfl
  · exact .inr (lo_hi_frame _ _ s).1
  · rw [writtenRegs_of_lo hi]
    exact .inr (lo_frame v s).1
  · exact .inr (rng_lo_frame _ _ s).1
  · rw [writtenRegs_of_secret hi]
    exact .inr (writeSecret_frame x s).1

/-- Settles O17: the registers by the frame of the command, `STATUS` and `FADDR` by what it does to
them. -/
theorem commandsWriteOnlyTheRegistersTheyName : Obligations.CommandsWriteOnlyTheRegistersTheyName := by
  refine fun i s t h => ⟨fun r hr hstatus hfaddr => ?_, fun hchanged => ?_⟩
  · rcases exec_sameRegsBut h with hregs | hregs
    · exact hregs r (by simp [hstatus, hfaddr])
    · exact hregs r hr
  · rcases exec_status_cases h with hraise | ⟨hi, -, -⟩ | ⟨hstatus, hfaddr⟩
    · exact .inr hraise
    · exact .inl hi
    · exact absurd hchanged (by simp [hstatus, hfaddr])

end Sys2Proof.Machine
end

section
/-! What the read check and the errors of a command depend on (20_memory.md R63, 60_exceptions.md
R130). -/

namespace Sys2Proof.Machine

/-- Settles O28: the wrap first, then the lowest refused address, else the buffer is readable. -/
theorem checkReadFindsTheRightError : Obligations.CheckReadFindsTheRightError :=
  fun _ _ _ => ⟨checkRead_eq_range,
    fun hfits a => (checkRead_eq_bus_iff hfits a).trans (firstRefused_eq_some_iff ..),
    checkRead_eq_none_iff⟩

theorem raise_errors_congr {s s' : State} (hstatus : s'.status = s.status)
    (hfaddr : s'.faddr = s.faddr) (e : CmdError) (opc : Byte) :
    (raise e opc s').status = (raise e opc s).status ∧
      (raise e opc s').faddr = (raise e opc s).faddr := by
  rcases herr : statusErr s.status
  · rw [raise_first herr, raise_first (hstatus ▸ herr), hstatus, hfaddr]
    exact ⟨rfl, rfl⟩
  · rw [raise_later herr, raise_later (hstatus ▸ herr), hstatus, hfaddr]
    exact ⟨rfl, rfl⟩

/-- A legal command that neither reads memory nor writes `STATUS` raises nothing (R130). -/
theorem exec_keeps_status_of_wellFormed {i : Instr} {s t : State} (hwf : i.wellFormed = true)
    (hload : i ∉ [Instr.rd64, .rd32, .rdsm, .hash]) (hi : ¬ writesStatus i)
    (h : exec i s = .next t) : t.status = s.status ∧ t.faddr = s.faddr := by
  cases i with
  | wri dst imm =>
    have hdst : ¬ 12 < dst.index.toNat := by
      rw [← mayWrite_eq_false_iff, Bool.not_eq_false]
      exact hwf
    obtain ⟨u, hw, -⟩ := exists_writeReg hdst imm s
    rw [exec_wri_of_writeReg hw] at h
    cases h
    exact writeReg_keeps_status hi hw
  | mov dst src =>
    obtain ⟨hread, hwrite⟩ := Bool.and_eq_true_iff.1 hwf
    have hdst : ¬ 12 < dst.index.toNat := by rw [← mayWrite_eq_false_iff, hwrite]; decide
    have hsrc : src ≠ .rsv15 := by simpa [Reg.mayRead] using hread
    obtain ⟨v, hv⟩ := exists_readReg hsrc s
    obtain ⟨u, hw, -⟩ := exists_writeReg hdst v s
    rw [exec_mov_of_writeReg hv hw] at h
    cases h
    exact writeReg_keeps_status (fun hd => hi ⟨hd, hsrc⟩) hw
  | rd src =>
    have hsrc : src ≠ .rsv15 := by simpa [Instr.wellFormed, Reg.mayRead] using hwf
    obtain ⟨v, hv⟩ := exists_readReg hsrc s
    rw [exec_rd_of_readReg hv] at h
    cases h
    exact ⟨rfl, rfl⟩
  | mksec =>
    simp only [exec, execMksec] at h
    split at h <;> cases h
    exact ⟨rfl, rfl⟩
  | nop | mum | mix | defsec | rand | u01 | gau =>
    cases h
    exact ⟨rfl, rfl⟩
  | rd64 | rd32 | rdsm | hash => exact absurd hload (by decide)

theorem readSetSize_congr (i : Instr) {s s' : State} (h : s'.len = s.len) :
    readSetSize i s' = readSetSize i s := by
  cases i <;> simp only [readSetSize, h]

/-- A command that reads memory has a read set, or is an `RDSM` refused for its length
(41_readers.md R96). -/
theorem readSetSize_cases {i : Instr} (hi : i ∈ [Instr.rd64, .rd32, .rdsm, .hash]) (s : State) :
    (∃ n, readSetSize i s = some n) ∨ i = .rdsm ∧ (s.len.toNat = 0 ∨ 3 < s.len.toNat) := by
  fin_cases hi
  · exact .inl ⟨_, rfl⟩
  · exact .inl ⟨_, rfl⟩
  · by_cases hlen : 1 ≤ s.len.toNat ∧ s.len.toNat ≤ 3
    · exact .inl ⟨_, readSetSize_rdsm hlen⟩
    · exact .inr ⟨rfl, by omega⟩
  · exact .inl ⟨_, rfl⟩

/-- The errors of a command that reads memory follow from `PTR`, `LEN` and memory. -/
theorem exec_load_errors_congr {i : Instr} (hi : i ∈ [Instr.rd64, .rd32, .rdsm, .hash])
    {s s' t t' : State} (hptr : s'.ptr = s.ptr) (hlen : s'.len = s.len) (hmem : s'.mem = s.mem)
    (hstatus : s'.status = s.status) (hfaddr : s'.faddr = s.faddr) (h : exec i s = .next t)
    (h' : exec i s' = .next t') : t'.status = t.status ∧ t'.faddr = t.faddr := by
  rcases readSetSize_cases hi s with ⟨n, hn⟩ | ⟨rfl, hillegal⟩
  · obtain ⟨f, hf⟩ := exec_eq_loadCommand hn
    obtain ⟨f', hf'⟩ := exec_eq_loadCommand ((readSetSize_congr i hlen).trans hn)
    rw [hf] at h
    rw [hf'] at h'
    cases h
    cases h'
    exact loadCommand_errors_congr hptr hmem hstatus hfaddr
  · have hs := execRdsm_of_illegal hillegal
    have hs' := execRdsm_of_illegal (s := s') (by rwa [hlen])
    cases hs.symm.trans h
    cases hs'.symm.trans h'
    exact raise_errors_congr hstatus hfaddr _ _

/-- Settles O30: what a command does to `STATUS` and `FADDR` follows from its operands' indices, and
beyond them only from `PTR`, `LEN` and memory. -/
theorem dataOperandsNeverRaise : Obligations.DataOperandsNeverRaise := by
  refine ⟨fun _ _ _ => exec_keeps_status_of_wellFormed,
    fun i s s' t t' hptr hlen hmem hstatus hfaddr h h' => ?_⟩
  by_cases hload : i ∈ [Instr.rd64, .rd32, .rdsm, .hash]
  · exact exec_load_errors_congr hload hptr hlen hmem hstatus hfaddr h h'
  by_cases hi : writesStatus i
  · rw [exec_of_writesStatus hi] at h h'
    cases h
    cases h'
    exact ⟨rfl, rfl⟩
  rcases hwf : i.wellFormed
  · rw [exec_of_not_wellFormed hwf] at h h'
    cases h
    cases h'
    exact raise_errors_congr hstatus hfaddr _ _
  · obtain ⟨ht, ht'⟩ := exec_keeps_status_of_wellFormed hwf hload hi h
    obtain ⟨hu, hu'⟩ := exec_keeps_status_of_wellFormed hwf hload hi h'
    exact ⟨hu.trans (hstatus.trans ht.symm), hu'.trans (hfaddr.trans ht'.symm)⟩

end Sys2Proof.Machine
end

section
/-! Outcomes from two states (10_state.md R36, 20_memory.md R50): related next states, or one refusal. -/

namespace Sys2Proof.Machine

/-- Both outcomes are next states that `R` relates, or both are the same refusal. -/
def sameOutcome (R : State → State → Prop) : Host.Outcome State Fault Refusal →
    Host.Outcome State Fault Refusal → Prop
  | .next t, .next t' => R t t'
  | .refused r, .refused r' => r = r'
  | _, _ => False

theorem sameOutcome_next {R : State → State → Prop} {t t' : State} (h : R t t') :
    sameOutcome R (.next t) (.next t') := h

theorem sameOutcome_refused (R : State → State → Prop) (r : Refusal) :
    sameOutcome R (.refused r) (.refused r) := rfl

/-! ### States that differ in `STATUS` and `FADDR` -/

theorem frame_of_eq_with_status {t t' : State}
    (h : t' = { t with status := t'.status, faddr := t'.faddr }) : frame [.status, .faddr] t t' := by
  rw [h]
  refine ⟨fun r hr => ?_, by simp [sameAround]⟩
  cases r <;> simp_all [readReg]

theorem lo_with_status_frame (x : Word) (s : State) (v f : Word) :
    frame [.status, .faddr] { s with lo := x } { s with lo := x, status := v, faddr := f } :=
  frame_of_eq_with_status rfl

theorem raise_eq_with_status (e : CmdError) (opc : Byte) (s : State) :
    raise e opc s =
      { s with status := (raise e opc s).status, faddr := (raise e opc s).faddr } := by
  unfold raise
  split <;> rfl

/-- Errors raised from states that differ in `STATUS` and `FADDR` only leave such states. -/
theorem raise_with_status_frame (e : CmdError) (opc : Byte) (s : State) (v f : Word) :
    frame [.status, .faddr] (raise e opc s) (raise e opc { s with status := v, faddr := f }) := by
  rw [raise_eq_with_status e opc s, raise_eq_with_status e opc { s with status := v, faddr := f }]
  exact frame_of_eq_with_status rfl

theorem loadCommand_with_status_frame (opc : Byte) (n : Nat) (g : (Nat → Byte) → Word) (s : State)
    (v f : Word) :
    frame [.status, .faddr] (loadCommand opc n g s)
      (loadCommand opc n g { s with status := v, faddr := f }) := by
  rcases loadCommand_cases opc n g s with ⟨e, he, hs⟩ | ⟨hnone, hs⟩
  · rw [hs, loadCommand_of_error (s := { s with status := v, faddr := f }) he]
    exact raise_with_status_frame e opc s v f
  · have hr := checkRead_eq_none_iff.1 hnone
    rw [hs, loadCommand_of_readable (s := { s with status := v, faddr := f }) hr]
    exact frame_of_eq_with_status rfl

theorem readReg_with_status {r : Reg} (hstatus : r ≠ .status) (hfaddr : r ≠ .faddr) (s : State)
    (v f : Word) : readReg r { s with status := v, faddr := f } = readReg r s := by
  cases r with
  | status => exact absurd rfl hstatus
  | faddr => exact absurd rfl hfaddr
  | a | b | lo | hi | seed | ptr | len | rng | sec0 | sec1 | sec2 | sec3 | config | rsv15 => rfl

/-- A register operand is refused from both states or written in both. -/
theorem writeReg_with_status (r : Reg) (x : Word) (s : State) (v f : Word) :
    (writeReg r x s = none ∧ writeReg r x { s with status := v, faddr := f } = none) ∨
    ∃ t t', writeReg r x s = some t ∧ writeReg r x { s with status := v, faddr := f } = some t' ∧
      frame [.status, .faddr] t t' := by
  cases r with
  | config | faddr | rsv15 => exact .inl ⟨rfl, rfl⟩
  | a | b | lo | hi | seed | ptr | len | rng | sec0 | sec1 | sec2 | sec3 | status =>
    exact .inr ⟨_, _, rfl, rfl, frame_of_eq_with_status rfl⟩

/-- A command that does not read `STATUS` or `FADDR` does the same to everything else (R36). -/
theorem exec_with_status {i : Instr} (hi : ¬ readsStatus i) (s : State) (v f : Word) :
    sameOutcome (frame [.status, .faddr]) (exec i s)
      (exec i { s with status := v, faddr := f }) := by
  cases i with
  | wri dst imm =>
    simp only [exec, execWri]
    rcases writeReg_with_status dst imm s v f with ⟨h, h'⟩ | ⟨t, t', h, h', hframe⟩ <;>
      simp only [h, h']
    · exact raise_with_status_frame ..
    · exact hframe
  | mov dst src =>
    obtain ⟨hstatus, hfaddr⟩ := not_or.1 hi
    simp only [exec, execMov, readReg_with_status hstatus hfaddr]
    rcases readReg src s with _ | x
    · exact raise_with_status_frame ..
    · rcases writeReg_with_status dst x s v f with ⟨h, h'⟩ | ⟨t, t', h, h', hframe⟩ <;>
        simp only [h, h']
      · exact raise_with_status_frame ..
      · exact hframe
  | rd src =>
    obtain ⟨hstatus, hfaddr⟩ := not_or.1 hi
    simp only [exec, execRd, readReg_with_status hstatus hfaddr]
    rcases readReg src s with _ | x
    · exact raise_with_status_frame ..
    · exact frame_of_eq_with_status rfl
  | rd64 | rd32 | hash => exact loadCommand_with_status_frame ..
  | rdsm =>
    simp only [exec, execRdsm]
    split
    · exact loadCommand_with_status_frame ..
    · exact raise_with_status_frame ..
  | mksec =>
    simp only [exec, execMksec]
    rcases makeSecret s.build s.mksecFuel s.seed with _ | x
    · exact sameOutcome_refused ..
    · exact frame_of_eq_with_status rfl
  | mix | u01 | gau => exact lo_with_status_frame ..
  | nop | mum | defsec | rand => exact frame_of_eq_with_status rfl

/-- Settles O23: each command, from both states. -/
theorem resultsDoNotDependOnStatus : Obligations.ResultsDoNotDependOnStatus := by
  intro i s v f hi
  have hsame := exec_with_status hi s v f
  exact hsame

/-! ### Memories that agree on the read set -/

/-- Settles O46: `wyhash` is a function of the bytes of its buffer (42_hash.md R105). -/
theorem wyhashReadsOnlyItsBuffer : Obligations.WyhashReadsOnlyItsBuffer := by
  intro bld M M' p n seed s h
  have hbytes : bufferBytes M p n = bufferBytes M' p n :=
    List.map_congr_left fun k hk => h k (List.mem_range.1 hk)
  rw [wyhash_eq_hashBytes, wyhash_eq_hashBytes, hbytes]

/-- `read_small` of a length it takes reads bytes of the buffer only (41_readers.md R93). -/
theorem readSmall_congr {M M' : Nat → Byte} {p n : Nat} (hn : 1 ≤ n)
    (h : ∀ k, k < n → M (p + k) = M' (p + k)) : readSmall M p n = readSmall M' p n := by
  have hhalf : n >>> 1 < n := by
    rw [Nat.shiftRight_eq_div_pow]
    omega
  have hfirst : M p = M' p := h 0 hn
  rw [readSmall, readSmall, Nat.add_sub_assoc hn, hfirst, h _ hhalf, h (n - 1) (by omega)]

theorem checkRead_congr {m m' : Memory} {p : Word} {n : Nat}
    (h : ∀ k, k < n → memByte m' (p.toNat + k) = memByte m (p.toNat + k)) :
    checkRead m' p n = checkRead m p n := by
  rw [checkRead, checkRead, firstRefused_congr h]

/-- A memory command whose result depends on its read set only does the same in a memory that agrees
there. -/
theorem loadCommand_with_mem {opc : Byte} {n : Nat} {g : (Nat → Byte) → Word} {s : State}
    {m : Memory} (h : ∀ k, k < n → memByte m (s.ptr.toNat + k) = memByte s.mem (s.ptr.toNat + k))
    (hg : ∀ M M' : Nat → Byte, (∀ k, k < n → M (s.ptr.toNat + k) = M' (s.ptr.toNat + k)) →
      g M = g M') :
    loadCommand opc n g { s with mem := m } = { loadCommand opc n g s with mem := m } := by
  have hcheck : checkRead m s.ptr n = checkRead s.mem s.ptr n := checkRead_congr h
  rcases loadCommand_cases opc n g s with ⟨e, he, hs⟩ | ⟨hnone, hs⟩
  · rw [hs, loadCommand_of_error (s := { s with mem := m }) (hcheck.trans he), raise_with_mem]
  · have hr := checkRead_eq_none_iff.1 (hcheck.trans hnone)
    have hsnap : g (snapshot m) = g (snapshot s.mem) :=
      hg _ _ fun k hk => by rw [snapshot, snapshot, h k hk]
    rw [hs, loadCommand_of_readable (s := { s with mem := m }) hr, hsnap]

theorem lo_with_mem (x : Word) (s : State) (m : Memory) :
    ({ s with lo := x, mem := m } : State) = { ({ s with lo := x } : State) with mem := m } := rfl

theorem readReg_with_mem (r : Reg) (s : State) (m : Memory) :
    readReg r { s with mem := m } = readReg r s := by
  cases r <;> rfl

theorem writeReg_with_mem (r : Reg) (v : Word) (s : State) (m : Memory) :
    writeReg r v { s with mem := m } = (writeReg r v s).map fun t => { t with mem := m } := by
  cases r <;> rfl

/-- A command looks at memory in its read set only (R50). -/
theorem exec_with_mem {i : Instr} {s : State} {m : Memory}
    (h : ∀ n, readSetSize i s = some n →
      ∀ k, k < n → memByte m (s.ptr.toNat + k) = memByte s.mem (s.ptr.toNat + k)) :
    sameOutcome (fun t t' => t' = { t with mem := m }) (exec i s) (exec i { s with mem := m }) := by
  cases i with
  | rd64 => exact loadCommand_with_mem (h 8 rfl) fun _ _ => memRead_congr
  | rd32 => exact loadCommand_with_mem (h 4 rfl) fun _ _ => memRead_congr
  | hash =>
    exact loadCommand_with_mem (h _ rfl) fun M M' => wyhashReadsOnlyItsBuffer _ M M' _ _ _ _
  | rdsm =>
    by_cases hlen : 1 ≤ s.len.toNat ∧ s.len.toNat ≤ 3
    · rw [exec, exec, execRdsm_of_legal hlen, execRdsm_of_legal (s := { s with mem := m }) hlen]
      exact loadCommand_with_mem (h _ (readSetSize_rdsm hlen)) fun _ _ => readSmall_congr hlen.1
    · have hillegal : s.len.toNat = 0 ∨ 3 < s.len.toNat := by omega
      rw [exec, exec, execRdsm_of_illegal hillegal,
        execRdsm_of_illegal (s := { s with mem := m }) hillegal]
      exact raise_with_mem ..
  | wri dst imm =>
    simp only [exec, execWri, writeReg_with_mem]
    rcases writeReg dst imm s with _ | t
    · exact raise_with_mem ..
    · exact sameOutcome_next rfl
  | mov dst src =>
    simp only [exec, execMov, readReg_with_mem]
    rcases readReg src s with _ | v
    · exact raise_with_mem ..
    · simp only [writeReg_with_mem]
      rcases writeReg dst v s with _ | t
      · exact raise_with_mem ..
      · exact sameOutcome_next rfl
  | rd src =>
    simp only [exec, execRd, readReg_with_mem]
    rcases readReg src s with _ | v
    · exact raise_with_mem ..
    · exact sameOutcome_next rfl
  | mksec =>
    simp only [exec, execMksec]
    rcases makeSecret s.build s.mksecFuel s.seed with _ | x
    · exact sameOutcome_refused ..
    · exact sameOutcome_next rfl
  | mix | u01 | gau => exact lo_with_mem ..
  | nop | mum | defsec | rand => exact sameOutcome_next rfl

/-- Settles O24: each command, in both memories. -/
theorem noCommandReadsOutsideItsReadSet : Obligations.NoCommandReadsOutsideItsReadSet := by
  intro i s m h
  have hsame := exec_with_mem h
  exact hsame

end Sys2Proof.Machine
end

section
/-! The host's moves (70_reset_and_hazards.md R150, R158; 60_exceptions.md R139). -/

namespace Sys2Proof.Machine

/-- Settles O13: each register of the reset state, by name. -/
theorem resetLeavesTheStatedValues : Obligations.ResetLeavesTheStatedValues := by
  refine fun s draw => ⟨fun r hr => ?_, rfl, rfl, rfl, rfl, rfl, rfl, rfl, rfl⟩
  fin_cases hr <;> rfl

/-- Settles O14: the reset state is a fixed state, but for the draw it holds in `RNG`. -/
theorem resetStateIsTheDefaultBuild : Obligations.ResetStateIsTheDefaultBuild :=
  ⟨rfl, rfl, ⟨rfl, rfl, rfl, rfl⟩, ⟨rfl, rfl⟩⟩

/-- Settles O22: reads after a write and after unmapping. -/
theorem hostWritesAreSeenAtTheirAddressOnly : Obligations.HostWritesAreSeenAtTheirAddressOnly :=
  fun s a v x => ⟨memByte_memWrite s.mem a.toNat v x, memByte_memUnmap s.mem a.toNat x⟩

/-- A move that is not a reset hands over words, output or memory, none of which is a register. -/
theorem readReg_envApply {m : EnvMove} (hm : ∀ draw, m ≠ .reset draw) (r : Reg) (s : State) :
    readReg r (envApply m s) = readReg r s := by
  cases m with
  | present ws => exact readReg_with_received r s s.pending _
  | takeOut => exact readReg_with_out r s _
  | writeByte a v => exact readReg_with_mem r s _
  | unmapByte a => exact readReg_with_mem r s _
  | reset draw => exact absurd rfl (hm draw)

/-- Settles O58: no register is touched, and each move writes one field. -/
theorem hostMovesLeaveTheRegisters : Obligations.HostMovesLeaveTheRegisters :=
  fun s => ⟨fun _ r hm => readReg_envApply hm r s, fun _ => rfl, ⟨_, rfl⟩,
    fun _ _ => ⟨_, rfl⟩, fun _ => ⟨_, rfl⟩⟩

end Sys2Proof.Machine
end

section
/-! The rest of multiply-mix and of the hash (40_mix.md R87, R89; 42_hash.md R98 to R101). -/

namespace Sys2Proof.Machine

/-- `wymix` folds the halves of the product, and in an XOR-stronger build the operands too (R87). -/
theorem wymix_eq (bld : Build) (a b : Word) :
    wymix bld a b =
      let pLo := (product128 a b).extractLsb' 0 64
      let pHi := (product128 a b).extractLsb' 64 64
      if bld.xorStronger then a ^^^ b ^^^ pLo ^^^ pHi else pLo ^^^ pHi := by
  rw [wymix]
  rcases h : bld.xorStronger
  · rw [wymum_default h]
    rfl
  · simp only [wymum_xorStronger h, if_true]
    ac_rfl

/-- Settles O36: the halves of the product are the two words asked for. -/
theorem mixFoldsTheExactProduct : Obligations.MixFoldsTheExactProduct := by
  refine ⟨encode_of_formatN .mix (by decide),
    fun s => ⟨_, _, product128_halves s.a s.b, ?_⟩⟩
  rw [exec, execMix, wymix_eq]

theorem product128_comm (a b : Word) : product128 a b = product128 b a :=
  BitVec.mul_comm _ _

theorem wymix_comm (bld : Build) (x y : Word) : wymix bld x y = wymix bld y x := by
  rw [wymix_eq, wymix_eq, product128_comm, BitVec.xor_comm x y]

theorem product128_zero (x : Word) : product128 0 x = 0 := by
  simp [product128]

/-- Settles O37: the product is symmetric, and 0 if an operand is. -/
theorem mixIsSymmetric : Obligations.MixIsSymmetric := by
  refine fun bld x y => ⟨wymix_comm bld x y, ?_⟩
  rw [wymix_eq, product128_zero]
  simp

/-- Settles O43: the read set is empty, and the pair of no bytes is `(0, 0)`. -/
theorem hashOfNothingReadsNothing : Obligations.HashOfNothingReadsNothing := by
  intro s hlen
  have hn : s.len.toNat = 0 := by rw [hlen]; rfl
  have hread : Readable s.mem s.ptr s.len.toNat :=
    ⟨by rw [hn]; exact s.ptr.isLt.le, fun i hi => by omega⟩
  rw [exec, execHash, loadCommand_of_readable hread, hn]
  rfl

section

variable (bld : Build) (M : Nat → Byte) (s : Secret) (p n : Nat) (sd : Word)

theorem blockPhase_sum : (blockPhase bld M s p n sd).q + (blockPhase bld M s p n sd).i = p + n := by
  rw [blockPhase]
  split
  · exact blockLoop_sum bld M s n _
  · rfl

/-- With the bound `i > 48` the block loop leaves at least a byte, as it takes no block of the last 48
(R99). -/
theorem blockLoop_leaves_a_byte (h : bld.blockGe48 = false) (fuel : Nat) (x : HashLoop)
    (hx : 1 ≤ x.i) : 1 ≤ (blockLoop bld M s fuel x).i := by
  induction fuel generalizing x with
  | zero => exact hx
  | succ fuel ih =>
    rw [blockLoop]
    split
    · next hcont =>
      have hgt : 48 < x.i := by simpa [blockCont_iff, h] using hcont
      exact ih _ (by simp only [blockStep]; omega)
    · exact hx

theorem blockPhase_leaves_a_byte (h : bld.blockGe48 = false) (hn : 1 ≤ n) :
    1 ≤ (blockPhase bld M s p n sd).i := by
  rw [blockPhase]
  split
  · exact blockLoop_leaves_a_byte bld M s h n _ hn
  · exact hn

end

/-- Settles O45: both loops keep the sum, the chunk loop stops at 16 bytes, and neither takes the last
byte. -/
theorem hashLoopsStopInTheLastSixteenBytes : Obligations.HashLoopsStopInTheLastSixteenBytes := by
  intro bld M s p n sd hn
  refine ⟨(chunkLoop_sum bld M s _ _).trans (blockPhase_sum bld M s p n sd),
    chunkLoop_stops bld M s _ _ (le_refl _), fun hbound => ?_⟩
  exact chunkLoop_leaves_a_byte bld M s _ _
    (blockPhase_leaves_a_byte bld M s p n sd hbound (by omega))

end Sys2Proof.Machine
end

section
/-! The period of wyrand (44_rand.md R113). -/

namespace Sys2Proof.Machine

/-- `k` steps add `k` increments. -/
theorem wyrandNext_iterate_toNat (t : Word) (k : Nat) :
    (wyrandNext^[k] t).toNat = (t.toNat + k * 0x2d358dccaa6c78a5) % 2 ^ 64 := by
  induction k with
  | zero => simpa using (Nat.mod_eq_of_lt t.isLt).symm
  | succ k ih =>
    have hinc : (0x2d358dccaa6c78a5 : Word).toNat = 0x2d358dccaa6c78a5 := rfl
    rw [Function.iterate_succ_apply', wyrandNext_eq_add, BitVec.toNat_add, ih, hinc]
    omega

/-- The increment is odd, so only a multiple of 2^64 steps adds a multiple of 2^64. -/
theorem wyrandNext_iterate_eq_self_iff (t : Word) (k : Nat) : wyrandNext^[k] t = t ↔ 2 ^ 64 ∣ k := by
  have hodd : Nat.Coprime (2 ^ 64) 0x2d358dccaa6c78a5 := by norm_num
  have hreturns : ∀ x, (t.toNat + x) % 2 ^ 64 = t.toNat ↔ 2 ^ 64 ∣ x := by
    have := t.isLt
    omega
  rw [← BitVec.toNat_inj, wyrandNext_iterate_toNat]
  exact (hreturns _).trans hodd.dvd_mul_right

/-- Settles O54: `k` steps return to the state when 2^64 divides `k` times the odd increment. -/
theorem rngPeriodIsExactlyTwoToTheSixtyFour : Obligations.RngPeriodIsExactlyTwoToTheSixtyFour :=
  wyrandNext_iterate_eq_self_iff

end Sys2Proof.Machine
end

section
/-! The search of MKSEC (43_secret.md R107 to R111): the bytes of an attempt, what the accepted ones make
up, and how many attempts a search that ends can need. -/

namespace Sys2Proof.Machine

/-! ### One attempt (R107) -/

theorem drawBytes_succ (bld : Build) (n : Nat) (t : Word) :
    drawBytes bld (n + 1) t =
      ((drawBytes bld n (wyrandNext t)).1,
        drawByte (wyrandOutput bld (wyrandNext t)) :: (drawBytes bld n (wyrandNext t)).2) := rfl

theorem drawBytes_state (bld : Build) (n : Nat) (t : Word) :
    (drawBytes bld n t).1 = wyrandNext^[n] t := by
  induction n generalizing t with
  | zero => rfl
  | succ n ih => rw [drawBytes_succ, ih, Function.iterate_succ_apply]

theorem drawBytes_length (bld : Build) (n : Nat) (t : Word) : (drawBytes bld n t).2.length = n := by
  induction n generalizing t with
  | zero => rfl
  | succ n ih => rw [drawBytes_succ, List.length_cons, ih]

theorem drawByte_mem_table (r : Word) : drawByte r ∈ table70 := by
  have hindex : r.toNat % 70 < table70.length := Nat.mod_lt _ (by decide)
  rw [drawByte, List.getD_eq_getElem _ _ hindex]
  exact List.getElem_mem hindex

theorem popcountByte_of_mem_table {v : Byte} (h : v ∈ table70) : popcountByte v = 4 := by
  rw [table70_eq_filter_popcountByte] at h
  simpa using (List.mem_filter.1 h).2

theorem popcountByte_drawBytes (bld : Build) (n : Nat) (t : Word) :
    ∀ v ∈ (drawBytes bld n t).2, popcountByte v = 4 := by
  induction n generalizing t with
  | zero => exact fun v hv => absurd hv List.not_mem_nil
  | succ n ih =>
    rw [drawBytes_succ]
    exact List.forall_mem_cons.2 ⟨popcountByte_of_mem_table (drawByte_mem_table _), ih _⟩

/-- An attempt leaves the state eight steps on. -/
theorem attempt_state {bld : Build} {t t' : Word} {vs : List Byte} (h : attempt bld t = (t', vs)) :
    t' = wyrandNext^[8] t := by
  rw [← drawBytes_state bld, ← attempt, h]

theorem attemptAccepted_iff (used vs : List Byte) :
    attemptAccepted used vs = true ↔ vs.Nodup ∧ ∀ v ∈ vs, v ∉ used := by
  simp [attemptAccepted]

/-! ### The attempts of a search, in order (R108) -/

/-- The bytes of attempt `k` of a search that begins at the private state `t`. -/
def attemptBytes (bld : Build) (t : Word) (k : Nat) : List Byte :=
  (attempt bld (wyrandNext^[8 * k] t)).2

theorem attemptBytes_zero {bld : Build} {t t' : Word} {vs : List Byte}
    (h : attempt bld t = (t', vs)) : attemptBytes bld t 0 = vs :=
  congrArg Prod.snd h

/-- After one attempt the search goes on as one that begins at the state it left. -/
theorem attemptBytes_succ {bld : Build} {t t' : Word} {vs : List Byte}
    (h : attempt bld t = (t', vs)) (k : Nat) :
    attemptBytes bld t (k + 1) = attemptBytes bld t' k := by
  rw [attemptBytes, Nat.mul_succ, Function.iterate_add_apply, ← attempt_state h, attemptBytes]

/-- The attempts repeat after 2^61 of them, as eight steps each make the period of wyrand. -/
theorem attemptBytes_add_period (bld : Build) (t : Word) (k : Nat) :
    attemptBytes bld t (k + 2 ^ 61) = attemptBytes bld t k := by
  have hperiod : ∀ n, 2 ^ 64 ∣ n → wyrandNext^[n] t = t :=
    fun n => (wyrandNext_iterate_eq_self_iff t n).2
  rw [attemptBytes, Nat.mul_add, Function.iterate_add_apply, hperiod _ (by norm_num), attemptBytes]

/-- A search that ends has a first accepted attempt. -/
theorem SearchFinds.exists_first {bld : Build} {used : List Byte} {t t' : Word} {vs : List Byte}
    (h : SearchFinds bld used t t' vs) :
    ∃ k, attemptAccepted used (attemptBytes bld t k) = true ∧
      ∀ j, j < k → attemptAccepted used (attemptBytes bld t j) = false := by
  induction h with
  | accept t t' vs ha hacc =>
    exact ⟨0, by rwa [attemptBytes_zero ha], fun j hj => absurd hj (Nat.not_lt_zero j)⟩
  | reject t t1 t' rejected vs ha hrej _ ih =>
    obtain ⟨k, hacc, hbefore⟩ := ih
    refine ⟨k + 1, by rwa [attemptBytes_succ ha], fun j hj => ?_⟩
    cases j with
    | zero => rwa [attemptBytes_zero ha]
    | succ j => rw [attemptBytes_succ ha, hbefore j (by omega)]

/-- The first accepted attempt comes within one period: a later one has an equal before it. -/
theorem first_accepted_lt_period {bld : Build} {used : List Byte} {t : Word} {k : Nat}
    (hacc : attemptAccepted used (attemptBytes bld t k) = true)
    (hbefore : ∀ j, j < k → attemptAccepted used (attemptBytes bld t j) = false) : k < 2 ^ 61 := by
  by_contra hk
  obtain ⟨j, rfl⟩ := Nat.exists_eq_add_of_le' (Nat.not_lt.1 hk)
  rw [attemptBytes_add_period, hbefore j (by omega)] at hacc
  cases hacc

/-! ### The fuel (R111; log 7) -/

theorem searchWord_of_accepted {bld : Build} {used : List Byte} {t t' : Word} {vs : List Byte}
    (ha : attempt bld t = (t', vs)) (hacc : attemptAccepted used vs = true) {fuel : Nat} :
    searchWord bld used (fuel + 1) t = some (fuel, t', vs) := by
  simp only [searchWord, ha, hacc, if_true]

theorem searchWord_of_rejected {bld : Build} {used : List Byte} {t t' : Word} {vs : List Byte}
    (ha : attempt bld t = (t', vs)) (hrej : attemptAccepted used vs = false) {fuel : Nat} :
    searchWord bld used (fuel + 1) t = searchWord bld used fuel t' := by
  simp [searchWord, ha, hrej]

/-- With fuel beyond the first accepted attempt, the search answers, and spends one unit on each
attempt up to it. -/
theorem exists_searchWord_of_accepted {bld : Build} {used : List Byte} {t : Word} {k : Nat}
    (hacc : attemptAccepted used (attemptBytes bld t k) = true) (fuel : Nat) (hfuel : k < fuel) :
    ∃ left t' vs, searchWord bld used fuel t = some (left, t', vs) ∧ fuel ≤ left + k + 1 := by
  induction k generalizing t fuel with
  | zero =>
    obtain ⟨fuel, rfl⟩ := Nat.exists_eq_add_one.2 (Nat.zero_lt_of_lt hfuel)
    rcases ha : attempt bld t with ⟨t1, vs1⟩
    rw [attemptBytes_zero ha] at hacc
    exact ⟨fuel, t1, vs1, searchWord_of_accepted ha hacc, by omega⟩
  | succ k ih =>
    obtain ⟨fuel, rfl⟩ := Nat.exists_eq_add_one.2 (Nat.zero_lt_of_lt hfuel)
    rcases ha : attempt bld t with ⟨t1, vs1⟩
    rw [attemptBytes_succ ha] at hacc
    rcases hfirst : attemptAccepted used vs1
    · obtain ⟨left, t', vs, hsearch, hleft⟩ := ih hacc fuel (by omega)
      exact ⟨left, t', vs, (searchWord_of_rejected ha hfirst).trans hsearch, by omega⟩
    · exact ⟨fuel, t1, vs1, searchWord_of_accepted ha hfirst, by omega⟩

/-- What a search ends with does not depend on how it is run: the relation has one answer. -/
theorem SearchFinds.unique {bld : Build} {used : List Byte} {t t' u' : Word} {vs ws : List Byte}
    (h : SearchFinds bld used t t' vs) (h' : SearchFinds bld used t u' ws) : t' = u' ∧ vs = ws := by
  induction h with
  | accept t t' vs ha hacc =>
    cases h' with
    | accept _ _ _ ha' _ => exact Prod.mk.inj (ha.symm.trans ha')
    | reject _ _ _ _ _ ha' hrej _ =>
      cases ha.symm.trans ha'
      rw [hacc] at hrej
      cases hrej
  | reject t t1 t' rejected vs ha hrej _ ih =>
    cases h' with
    | accept _ _ _ ha' hacc =>
      cases ha.symm.trans ha'
      rw [hacc] at hrej
      cases hrej
    | reject _ _ _ _ _ ha' _ hrest =>
      cases ha.symm.trans ha'
      exact ih hrest

/-- A search that ends is found with the fuel of one period, and leaves the rest of the fuel. -/
theorem SearchFinds.exists_searchWord {bld : Build} {used : List Byte} {t t' : Word} {vs : List Byte}
    (h : SearchFinds bld used t t' vs) {fuel : Nat} (hfuel : 2 ^ 61 ≤ fuel) :
    ∃ left, searchWord bld used fuel t = some (left, t', vs) ∧ fuel ≤ left + 2 ^ 61 := by
  obtain ⟨k, hacc, hbefore⟩ := h.exists_first
  have hk := first_accepted_lt_period hacc hbefore
  obtain ⟨left, u', ws, hsearch, hleft⟩ := exists_searchWord_of_accepted hacc fuel (by omega)
  obtain ⟨rfl, rfl⟩ := h.unique (searchWord_sound hsearch)
  exact ⟨left, hsearch, by omega⟩

/-- Four words, each within a period of attempts, fit into a fuel of 2^63. -/
theorem MakesSecret.makeSecret_eq_some {bld : Build} {seed : Word} {x : Secret}
    (h : MakesSecret bld seed x) {fuel : Nat} (hfuel : 2 ^ 63 ≤ fuel) : makeSecret bld fuel seed = some x := by
  obtain ⟨t1, t2, t3, t4, v0, v1, v2, v3, h0, h1, h2, h3, rfl⟩ := h
  obtain ⟨fuel1, hs0, hfuel1⟩ := h0.exists_searchWord (fuel := fuel) (by omega)
  obtain ⟨fuel2, hs1, hfuel2⟩ := h1.exists_searchWord (fuel := fuel1) (by omega)
  obtain ⟨fuel3, hs2, hfuel3⟩ := h2.exists_searchWord (fuel := fuel2) (by omega)
  obtain ⟨fuel4, hs3, -⟩ := h3.exists_searchWord (fuel := fuel3) (by omega)
  simp only [makeSecret, hs0, hs1, hs2, hs3]

/-! ### `MKSEC` (R110) -/

theorem exec_mksec_of_some {s : State} {x : Secret}
    (h : makeSecret s.build s.mksecFuel s.seed = some x) :
    exec .mksec s = .next { s with sec0 := x.s0, sec1 := x.s1, sec2 := x.s2, sec3 := x.s3 } := by
  simp only [exec, execMksec, h]
  rfl

/-- Settles O49: with that fuel the search under fuel is the search itself. -/
theorem mksecWritesTheSecretOfItsSearch : Obligations.MksecWritesTheSecretOfItsSearch :=
  fun _ _ h hfuel => exec_mksec_of_some (h.makeSecret_eq_some hfuel)

/-- Settles O50: what the search under fuel answers is what the search ends with. -/
theorem mksecNeverWritesAnythingElse : Obligations.MksecNeverWritesAnythingElse := by
  intro s
  rcases h : makeSecret s.build s.mksecFuel s.seed with _ | x
  · exact .inr (by simp only [exec, execMksec, h])
  · exact .inl ⟨x, makeSecret_sound h, exec_mksec_of_some h⟩

/-- Settles O51: a search that ends is not refused under that fuel, and one that does not end gives no
secret under any. -/
theorem mksecIsRefusedOnlyIfItNeverEnds : Obligations.MksecIsRefusedOnlyIfItNeverEnds := by
  refine fun s hfuel => ⟨?_, fun hnever => ?_⟩
  · rintro hrefused ⟨x, hx⟩
    have hnext := mksecWritesTheSecretOfItsSearch s x hx hfuel
    cases hrefused.symm.trans hnext
  · rcases mksecNeverWritesAnythingElse s with ⟨x, hx, -⟩ | hrefused
    · exact absurd ⟨x, hx⟩ hnever
    · exact hrefused

/-! ### The bytes of a derived secret (R29, R108) -/

/-- What a search ends with is an attempt that was accepted. -/
theorem SearchFinds.accepted {bld : Build} {used : List Byte} {t t' : Word} {vs : List Byte}
    (h : SearchFinds bld used t t' vs) :
    attemptAccepted used vs = true ∧ ∃ u, attempt bld u = (t', vs) := by
  induction h with
  | accept t t' vs ha hacc => exact ⟨hacc, t, ha⟩
  | reject _ _ _ _ _ _ _ _ ih => exact ih

theorem SearchFinds.length_eq {bld : Build} {used : List Byte} {t t' : Word} {vs : List Byte}
    (h : SearchFinds bld used t t' vs) : vs.length = 8 := by
  obtain ⟨-, u, hu⟩ := h.accepted
  have hlength := drawBytes_length bld 8 u
  rwa [← attempt, hu] at hlength

theorem SearchFinds.popcountByte_eq {bld : Build} {used : List Byte} {t t' : Word} {vs : List Byte}
    (h : SearchFinds bld used t t' vs) : ∀ v ∈ vs, popcountByte v = 4 := by
  obtain ⟨-, u, hu⟩ := h.accepted
  have hcount := popcountByte_drawBytes bld 8 u
  rwa [← attempt, hu] at hcount

/-- Each word adds bytes that are distinct and not used before. -/
theorem SearchFinds.nodup_append {bld : Build} {used : List Byte} {t t' : Word} {vs : List Byte}
    (h : SearchFinds bld used t t' vs) (hused : used.Nodup) : (used ++ vs).Nodup := by
  obtain ⟨hacc, -⟩ := h.accepted
  obtain ⟨hnodup, hfresh⟩ := (attemptAccepted_iff used vs).1 hacc
  exact hused.append hnodup fun v hv hvs => hfresh v hvs hv

/-- Eight bytes are read back from the word they compose. -/
theorem wordBytes_leWord {vs : List Byte} (h : vs.length = 8) : wordBytes (leWord vs) = vs := by
  refine List.ext_getElem (by simp [wordBytes, h]) fun j _ hj => ?_
  have hbyte := leWord_byte vs j (h ▸ hj)
  simpa [wordBytes, hj] using hbyte

/-- Settles O52: the bytes of the secret are those of the four accepted attempts. -/
theorem derivedSecretsAreBalancedAndDistinct : Obligations.DerivedSecretsAreBalancedAndDistinct := by
  rintro bld seed x ⟨t1, t2, t3, t4, v0, v1, v2, v3, h0, h1, h2, h3, rfl⟩
  have hbytes : secretBytes ⟨leWord v0, leWord v1, leWord v2, leWord v3⟩ = v0 ++ v1 ++ v2 ++ v3 := by
    simp only [secretBytes, wordBytes_leWord h0.length_eq, wordBytes_leWord h1.length_eq,
      wordBytes_leWord h2.length_eq, wordBytes_leWord h3.length_eq]
  rw [hbytes]
  refine ⟨?_, ?_, ?_⟩
  · simp [h0.length_eq, h1.length_eq, h2.length_eq, h3.length_eq]
  · exact h3.nodup_append (h2.nodup_append (h1.nodup_append (h0.nodup_append List.nodup_nil)))
  · simp only [List.forall_mem_append]
    exact ⟨⟨⟨h0.popcountByte_eq, h1.popcountByte_eq⟩, h2.popcountByte_eq⟩, h3.popcountByte_eq⟩

end Sys2Proof.Machine
end

section
/-! `GAU` as a function of the popcount (45_distrib.md R116). -/

namespace Sys2Proof.Machine

theorem wy2gau_congr (bld : Build) {x y : Word} (h : popcount x = popcount y) :
    wy2gau bld x = wy2gau bld y := by
  rw [wy2gau, wy2gau, gauIndex_eq, gauIndex_eq, h]

theorem wy2gau_of_gt (bld : Build) {x : Word} {k : ℕ} (h : popcount x = 33 + k) :
    wy2gau bld x = scaleBits (k + 1) (gauScaleBits bld.gauScale) := by
  have hindex : gauIndex x = .ofNat (k + 1) := by
    rw [gauIndex_eq, h, Int.ofNat_eq_natCast]
    push_cast
    ring
  rw [wy2gau, hindex]

theorem wy2gau_of_lt (bld : Build) {x : Word} {k : ℕ} (h : popcount x + k = 31) :
    wy2gau bld x = signBit ||| scaleBits (k + 1) (gauScaleBits bld.gauScale) := by
  have hindex : gauIndex x = .negSucc k := by
    rw [gauIndex_eq, Int.negSucc_eq]
    omega
  rw [wy2gau, hindex]

/-- Settles O57: opposite popcounts scale the same multiple, whose sign bit is clear. -/
theorem gaussianDoubleIsOddInThePopcount : Obligations.GaussianDoubleIsOddInThePopcount := by
  refine fun bld x y => ⟨wy2gau_congr bld, fun hsum hlt => ?_⟩
  obtain ⟨k, hk⟩ := Nat.exists_eq_add_of_lt hlt
  obtain ⟨-, hpos, hfin⟩ := gauScaleBits_normal bld.gauScale
  have hx := wy2gau_of_lt bld (x := x) (k := k) (by omega)
  have hy := wy2gau_of_gt bld (x := y) (k := k) (by omega)
  rw [hx, hy]
  exact ⟨BitVec.or_comm _ _, scaleBits_sign k.succ_pos (by omega) hpos hfin⟩

end Sys2Proof.Machine
end
